-- ==== Sys2Proof/Word.lean ====
section
/-!
DEFINITION. Word.lean: the word types of the block (`00_scope.md` §7.1: a byte is 8 bits, every value is unsigned).
-/
namespace Sys2Proof

/-- A byte, bit 7 its most significant bit (`00_scope.md` §7.1). -/
abbrev Byte := BitVec 8

/-- The width of the CRC16 register (R21). -/
abbrev Word16 := BitVec 16

/-- The width of the CRC32 register (R22). -/
abbrev Word32 := BitVec 32

/-- A command word: 16 bits, one format for every command (R71). -/
abbrev CmdWord := BitVec 16

end Sys2Proof
end

