-- ==== Sys2Proof/Config.lean ====
section
/-!
DEFINITION. Config.lean: the hardwired constants of R7 and the two parameters of R8 (`00_scope.md` §5), and the free
values of the context harness (file 43; the block itself has none).
-/
namespace Sys2Proof

/-- The parameters a model takes as arguments (R8). A machine carries them unchanged (log 3). -/
structure Config where
  /-- `BUF_CAP`: capacity in bytes of the FS receive buffer. -/
  bufCap : Nat
  /-- `N_INST`: number of independent instances. -/
  nInst : Nat
  deriving DecidableEq, Repr

namespace Config

/-- The defaults of R8: `BUF_CAP = 65543`, `N_INST = 1`. -/
def standard : Config := { bufCap := 65543, nInst := 1 }

/-- Header sentinel, first byte on the wire (R7, R42). -/
abbrev hdr0 : Byte := 0xAB#8
/-- Header sentinel, second byte on the wire. -/
abbrev hdr1 : Byte := 0xCD#8
/-- Footer sentinel, first byte on the wire. -/
abbrev ftr0 : Byte := 0xDC#8
/-- Footer sentinel, second byte on the wire. -/
abbrev ftr1 : Byte := 0xBA#8

/-- `POLY16` (R7): the `x^16` term is implicit. -/
abbrev poly16 : Word16 := 0x1021#16
/-- `INIT16` (R7). -/
abbrev init16 : Word16 := 0x0000#16
/-- `POLY32R` (R7): bit-reversed, for LSB-first processing. -/
abbrev poly32r : Word32 := 0xEDB88320#32
/-- `INIT32` (R7). -/
abbrev init32 : Word32 := 0xFFFFFFFF#32
/-- `XOROUT32` (R7): the final bitwise complement. -/
abbrev xorOut32 : Word32 := 0xFFFFFFFF#32

/-- `FRAME_OVERHEAD` (R7): 2 header + 2 length + 2 checksum-or-trailer + 2 footer. -/
abbrev frameOverhead : Nat := 8

/-- FREE VALUE (context only, U7, log 9): which reading `decode` takes when both begin with the reply identifier. `true`
is the XOR-reversed one. Nothing is known of it. -/
opaque bothMatchPicksReversed : List Byte → Bool

/-- FREE VALUE (context only, R177, log 11): whether a line that holds both final sentinels counts as success. -/
opaque bothFinalsPickOk : List Byte → Bool

end Config
end Sys2Proof
end

