-- ==== Sys2Proof/Syntax.lean ====
section
/-!
DEFINITION. Syntax.lean: the ten commands, one constructor per row of the opcode table (R73). The word a command has is
in Decode.lean; its meaning is in Machine/.
-/
namespace Sys2Proof

/-- The commands of the block: its "instructions" (R9). The only operand is one byte (R72). -/
inductive Instr where
  /-- `C16.INIT` (R93) -/
  | c16Init
  /-- `C16.UPD d` (R94) -/
  | c16Upd (d : Byte)
  /-- `C16.GET` (R95) -/
  | c16Get
  /-- `C32.INIT` (R113) -/
  | c32Init
  /-- `C32.UPD d` (R114) -/
  | c32Upd (d : Byte)
  /-- `C32.GET` (R115) -/
  | c32Get
  /-- `FS.CLR` (R138) -/
  | fsClr
  /-- `FS.PUSH d` (R137) -/
  | fsPush (d : Byte)
  /-- `FS.PARSE` (R136) -/
  | fsParse
  /-- `FS.LEVEL` (R139) -/
  | fsLevel
  deriving DecidableEq, Repr

/-- The three functional units (R1). -/
inductive FunUnit where
  | c16 | c32 | fs
  deriving DecidableEq, Repr

/-- The unit that executes a command (R9: "three families"). -/
def Instr.unit : Instr → FunUnit
  | .c16Init | .c16Upd _ | .c16Get => .c16
  | .c32Init | .c32Upd _ | .c32Get => .c32
  | .fsClr | .fsPush _ | .fsParse | .fsLevel => .fs

/-- The two fields of a command word before it is known to be a command (R71). -/
structure CmdFields where
  /-- `op = CMD[15:8]` -/
  op : Byte
  /-- `d = CMD[7:0]` -/
  d : Byte
  deriving DecidableEq, Repr

end Sys2Proof
end

