-- ==== Sys2Proof/Machine/State.lean ====
section
/-!
DEFINITION. Machine/State.lean: the state of the block (R20 to R33), the channels around it (R70, log 1), the reasons a
step can stop, and the state after reset (R32).
-/
namespace Sys2Proof.Machine

open Sys2Proof

/-- The receive buffer as memory (R23, R28): bytes, index 0 the front (the oldest byte). No command carries an address,
so it is a sequence and not a map from addresses (log 6). -/
abbrev Memory := List Byte

/-- The form R20 gives the buffer: `0 <= len(buf) <= BUF_CAP`. -/
abbrev Memory.wf (cap : Nat) (buf : Memory) : Prop := buf.length ≤ cap

/-- The architectural state of one instance: exactly three pieces (R20). -/
structure Inst where
  /-- The running CRC16-XMODEM remainder (R21). -/
  crc16 : Word16
  /-- The running CRC32 remainder BEFORE the final complement (R22). -/
  crc32 : Word32
  /-- The FS receive buffer (R23). -/
  buf : Memory
  deriving DecidableEq, Repr

/-- A response: a status and, for some statuses, a value (R77). -/
inductive Response where
  | ok
  | val16 (v : Word16)
  | val32 (v : Word32)
  /-- `n` is a length, exact (R77: at least 17 bits; R82: no wrap-around). -/
  | level (n : Nat)
  /-- One status for both "no frame yet" and "wait for more" (R78). -/
  | noFrame
  /-- The payload field as received and the whole frame as it stood in the buffer (R79). -/
  | frame (payload raw : List Byte)
  | full
  | illegal
  deriving DecidableEq, Repr

/-- One instance with its response channel (R70, R207): the responses the host has not read yet, oldest first (R50). -/
structure Port where
  inst : Inst
  unread : List Response
  deriving DecidableEq, Repr

/-- What the host does to the block (R9, R70, R220). An instance is named by its channel (R207). -/
inductive HostInput where
  /-- the host issues a command word on a channel -/
  | command (ch : Nat) (w : CmdWord)
  /-- the host reads the oldest unread response of a channel -/
  | readResponse (ch : Nat)
  /-- the one reset input is asserted (R220) -/
  | reset
  deriving DecidableEq, Repr

/-- The machine: the instances with their response channels, and what the host brings. -/
structure State where
  /-- The parameters of R8; no step changes them (log 3). -/
  cfg : Config
  /-- The instances in channel order (R31, R207). -/
  ports : List Port
  /-- The channel of the command being executed (R207, log 2). -/
  sel : Nat
  /-- What the host will do, next first: the input of the step relation, no state of the block (R30, log 1). -/
  inputs : List HostInput
  deriving DecidableEq, Repr

/-- The block has no fault (R200, R210); this one is the model's. -/
inductive Fault where
  /-- Raised by every command meaning and by a host input when the channel named is not one of the `N_INST` channels of
  R207. SAFE: the spec has no such event, and no well-formed state meets it (log 2). -/
  | noSuchChannel
  deriving DecidableEq, Repr

/-- An illegal command word is no refusal here: R210 gives it a step with the response `ILLEGAL`. -/
inductive Refusal where
  /-- Raised by exec's arm of a command without a meaning. SAFE. No command is left so. -/
  | notModelled (mnemonic : String)
  deriving DecidableEq, Repr

/-- One instance after reset (R32). -/
def Inst.reset : Inst := { crc16 := Config.init16, crc32 := Config.init32, buf := [] }

/-- One instance after reset with an empty response channel: an unread response is lost (R220). -/
def Port.reset : Port := { inst := Inst.reset, unread := [] }

/-- The machine right after reset for any parameters (R32, R220): every instance at R32's values. -/
def State.resetWith (c : Config) : State :=
  { cfg := c, ports := List.replicate c.nInst Port.reset, sel := 0, inputs := [] }

/-- The machine right after reset, with the parameters at R8's defaults. -/
def State.reset : State := State.resetWith Config.standard

end Sys2Proof.Machine
end

