-- ==== Sys2Proof/Machine/Operands.lean ====
section
/-!
DEFINITION. Machine/Operands.lean: how the operand byte enters each unit and how wire bytes become numbers (R40 to R45,
R72, R82; `00_scope.md` §7.1). No command has any other operand form (R72).
-/
namespace Sys2Proof.Machine

open Sys2Proof

/-- The operand byte at the top of the 16-bit register, its bit 7 foremost: MSB-first (R43, R91). -/
def byteAtTop16 (b : Byte) : Word16 := b.zeroExtend 16 <<< 8

/-- The operand byte at the bottom of the 32-bit register, its bit 0 foremost: LSB-first (R44, R111). -/
def byteAtBottom32 (b : Byte) : Word32 := b.zeroExtend 32

/-- `le16(b0, b1) = b0 + 256*b1`, exact (R41, R82). -/
def le16 (b0 b1 : Byte) : Nat := b0.toNat + 256 * b1.toNat

/-- `u16LE(v)`: low byte first (`00_scope.md` §7.1). -/
def u16LE (v : Word16) : List Byte := [v.extractLsb' 0 8, v.extractLsb' 8 8]

/-- `u32LE(v)`: low byte first (`00_scope.md` §7.1). -/
def u32LE (v : Word32) : List Byte :=
  [v.extractLsb' 0 8, v.extractLsb' 8 8, v.extractLsb' 16 8, v.extractLsb' 24 8]

end Sys2Proof.Machine
end

