-- ==== Sys2Proof/Machine/Ops.lean ====
section
/-!
DEFINITION. Machine/Ops.lean: the named operations every meaning is written over: the buffer primitives (R40,
`00_scope.md` §7.2), responding on a channel (R70, R77), reset (R220) and the host's read. There is no exception to take
and none to return from (R200, R205): a command ends in exactly one response, `respond` of `00_scope.md` §7.3.
-/
namespace Sys2Proof.Machine

open Sys2Proof

/-- `buf[i]`. The rules read only indices below `len(buf)`; the value past the end is never used (log 8). -/
def byteAt (buf : Memory) (i : Nat) : Byte := buf.getD i 0x00#8

/-- `MemRead(i, n)`: `buf[i..i+n-1]`, no side effect (R40). -/
def memRead (i n : Nat) (buf : Memory) : List Byte := (buf.drop i).take n

/-- `BufAppend(b)`: the one store, at the back (R40, R84). -/
def bufAppend (b : Byte) (buf : Memory) : Memory := buf ++ [b]

/-- `BufDrop(k)`: the `k` front bytes go (R40). -/
def bufDrop (k : Nat) (buf : Memory) : Memory := buf.drop k

/-- `BufClear()` (R40). -/
def bufClear (_buf : Memory) : Memory := []

/-- The serving instance becomes `m` and `r` joins its channel's responses, behind the earlier ones (R50, R70). `p` is the
port of that channel before. -/
def State.answer (s : State) (p : Port) (m : Inst) (r : Response) : State :=
  { s with ports := s.ports.set s.sel { inst := m, unread := p.unread ++ [r] } }

/-- A command on the selected channel: the instance there goes to the command's next instance and its response is given
(R9: atomic, one response; R31: that instance only). -/
def onChannel (f : Inst → Inst × Response) (s : State) : Host.Outcome State Fault Refusal :=
  match s.ports[s.sel]? with
  | none => .fault .noSuchChannel
  | some p => .next (s.answer p (f p.inst).1 (f p.inst).2)

/-- An illegal command word: no state change, response `ILLEGAL` (R74). -/
def illegalWord (m : Inst) : Inst × Response := (m, .illegal)

/-- The host reads the oldest unread response of a channel (R50: in command order; log 4). -/
def hostRead (ch : Nat) (s : State) : Host.Outcome State Fault Refusal :=
  match s.ports[ch]? with
  | none => .fault .noSuchChannel
  | some p => .next { s with ports := s.ports.set ch { p with unread := p.unread.tail } }

/-- The reset input: every instance at R32's values, unread responses lost, parameters and later inputs kept (R220). -/
def assertReset (s : State) : State :=
  { s with ports := List.replicate s.cfg.nInst Port.reset, sel := 0 }

end Sys2Proof.Machine
end

