-- ==== Sys2Proof/Machine/Crc16.lean ====
section
/-!
DEFINITION. Machine/Crc16.lean: the CRC16 unit (`40_crc16.md`): the byte step, the function, the three commands.
-/
namespace Sys2Proof.Machine

open Sys2Proof

/-- One iteration of R91's loop: bit 15 is tested, then shifted out and dropped. -/
def crc16Bit (c : Word16) : Word16 :=
  if c.getLsbD 15 then (c <<< 1) ^^^ Config.poly16 else c <<< 1

/-- `crc16_step(c, b)` (R91): the byte enters at the top, then eight iterations. -/
def crc16Step (c : Word16) (b : Byte) : Word16 := crc16Bit^[8] (c ^^^ byteAtTop16 b)

/-- `CRC16_XMODEM(s)` (R92): the left fold of the byte step from 0; no reflection, no final XOR. -/
def crc16Xmodem (s : List Byte) : Word16 := s.foldl crc16Step Config.init16

/-- `C16.INIT` (R93). -/
def c16Init (m : Inst) : Inst × Response := ({ m with crc16 := Config.init16 }, .ok)

/-- `C16.UPD d` (R94). -/
def c16Upd (d : Byte) (m : Inst) : Inst × Response := ({ m with crc16 := crc16Step m.crc16 d }, .ok)

/-- `C16.GET` (R95). -/
def c16Get (m : Inst) : Inst × Response := (m, .val16 m.crc16)

/-- `C16.INIT` on the selected channel (R93). -/
def execC16Init (s : State) : Host.Outcome State Fault Refusal := onChannel c16Init s

/-- `C16.UPD d` on the selected channel (R94). -/
def execC16Upd (d : Byte) (s : State) : Host.Outcome State Fault Refusal := onChannel (c16Upd d) s

/-- `C16.GET` on the selected channel (R95). -/
def execC16Get (s : State) : Host.Outcome State Fault Refusal := onChannel c16Get s

end Sys2Proof.Machine
end

