-- ==== Sys2Proof/Machine/Crc32.lean ====
section
/-!
DEFINITION. Machine/Crc32.lean: the CRC32 unit (`41_crc32.md`): the byte step, the function, the three commands.
-/
namespace Sys2Proof.Machine

open Sys2Proof

/-- One iteration of R111's loop: logical shift right, bit 31 becomes 0 before the XOR. -/
def crc32Bit (c : Word32) : Word32 :=
  if c.getLsbD 0 then (c >>> 1) ^^^ Config.poly32r else c >>> 1

/-- `crc32_step(c, b)` (R111): the byte enters at the bottom, then eight iterations. -/
def crc32Step (c : Word32) (b : Byte) : Word32 := crc32Bit^[8] (c ^^^ byteAtBottom32 b)

/-- `CRC32(s)` (R112): the left fold of the byte step from `INIT32`, complemented at the end. -/
def crc32 (s : List Byte) : Word32 := s.foldl crc32Step Config.init32 ^^^ Config.xorOut32

/-- `C32.INIT` (R113). -/
def c32Init (m : Inst) : Inst × Response := ({ m with crc32 := Config.init32 }, .ok)

/-- `C32.UPD d` (R114). -/
def c32Upd (d : Byte) (m : Inst) : Inst × Response := ({ m with crc32 := crc32Step m.crc32 d }, .ok)

/-- `C32.GET` (R115): the complement goes out, the register keeps the running value. -/
def c32Get (m : Inst) : Inst × Response := (m, .val32 (m.crc32 ^^^ Config.xorOut32))

/-- `C32.INIT` on the selected channel (R113). -/
def execC32Init (s : State) : Host.Outcome State Fault Refusal := onChannel c32Init s

/-- `C32.UPD d` on the selected channel (R114). -/
def execC32Upd (d : Byte) (s : State) : Host.Outcome State Fault Refusal := onChannel (c32Upd d) s

/-- `C32.GET` on the selected channel (R115). -/
def execC32Get (s : State) : Host.Outcome State Fault Refusal := onChannel c32Get s

end Sys2Proof.Machine
end

