-- ==== Sys2Proof/Machine/FrameSync.lean ====
section
/-!
DEFINITION. Machine/FrameSync.lean: the FS unit (`42_frame_sync.md`): the header search, the six steps of FS.PARSE, and
the four commands.
-/
namespace Sys2Proof.Machine

open Sys2Proof

/-- `find_header(s)` (R131): the least index of an adjacent `AB CD`. -/
def findHeader : List Byte → Option Nat
  | a :: b :: rest =>
    if a = Config.hdr0 ∧ b = Config.hdr1 then some 0 else (findHeader (b :: rest)).map (· + 1)
  | [_] => none
  | [] => none

/-- Steps 3 to 6, for a buffer that begins with the header (R133 to R135): the buffer after, and the response. `L` and
`T = L + 8` are exact (R82, R134). -/
def parseAtHeader (buf : Memory) : Memory × Response :=
  if buf.length < 4 then (buf, .noFrame)
  else
    let L := le16 (byteAt buf 2) (byteAt buf 3)
    let T := L + Config.frameOverhead
    if buf.length < T then (buf, .noFrame)
    else if byteAt buf (T - 2) = Config.ftr0 ∧ byteAt buf (T - 1) = Config.ftr1 then
      let raw := memRead 0 T buf
      (bufDrop T buf, .frame (memRead 4 L raw) raw)
    else (bufDrop 1 buf, .noFrame)

/-- One run of the six steps (R136): steps 1 and 2 are the hunt of R132, whose removal is committed. -/
def parse (buf : Memory) : Memory × Response :=
  match findHeader buf with
  | none => (bufClear buf, .noFrame)
  | some h => parseAtHeader (bufDrop h buf)

/-- `FS.PARSE` (R136). -/
def fsParse (m : Inst) : Inst × Response := ({ m with buf := (parse m.buf).1 }, (parse m.buf).2)

/-- `FS.PUSH d` (R137): appended if there is room, else refused and forgotten. -/
def fsPush (cap : Nat) (d : Byte) (m : Inst) : Inst × Response :=
  if m.buf.length < cap then ({ m with buf := bufAppend d m.buf }, .ok) else (m, .full)

/-- `FS.CLR` (R138). -/
def fsClr (m : Inst) : Inst × Response := ({ m with buf := bufClear m.buf }, .ok)

/-- `FS.LEVEL` (R139). -/
def fsLevel (m : Inst) : Inst × Response := (m, .level m.buf.length)

/-- `FS.CLR` on the selected channel (R138). -/
def execFsClr (s : State) : Host.Outcome State Fault Refusal := onChannel fsClr s

/-- `FS.PUSH d` on the selected channel, against the machine's `BUF_CAP` (R137). -/
def execFsPush (d : Byte) (s : State) : Host.Outcome State Fault Refusal :=
  onChannel (fsPush s.cfg.bufCap d) s

/-- `FS.PARSE` on the selected channel (R136). -/
def execFsParse (s : State) : Host.Outcome State Fault Refusal := onChannel fsParse s

/-- `FS.LEVEL` on the selected channel (R139). -/
def execFsLevel (s : State) : Host.Outcome State Fault Refusal := onChannel fsLevel s

end Sys2Proof.Machine
end

