-- ==== Sys2Proof/Machine/Dispatch.lean ====
section
/-!
DEFINITION. Machine/Dispatch.lean: each command to its meaning, on the channel that `sel` names.
-/
namespace Sys2Proof.Machine

open Sys2Proof

def exec (i : Instr) (s : State) : Host.Outcome State Fault Refusal :=
  match i with
  | .c16Init => Sys2Proof.Machine.execC16Init s
  | .c16Upd d => Sys2Proof.Machine.execC16Upd d s
  | .c16Get => Sys2Proof.Machine.execC16Get s
  | .c32Init => Sys2Proof.Machine.execC32Init s
  | .c32Upd d => Sys2Proof.Machine.execC32Upd d s
  | .c32Get => Sys2Proof.Machine.execC32Get s
  | .fsClr => Sys2Proof.Machine.execFsClr s
  | .fsPush d => Sys2Proof.Machine.execFsPush d s
  | .fsParse => Sys2Proof.Machine.execFsParse s
  | .fsLevel => Sys2Proof.Machine.execFsLevel s

end Sys2Proof.Machine
end

