-- ==== Sys2Proof/WellFormed.lean ====
section
/-!
DEFINITION. WellFormed.lean: which field pairs are commands (R73, R74) and which parameters are allowed (R8). Every term
of Instr is a well-formed command: its operand is a byte by its type.
-/
namespace Sys2Proof

/-- The opcodes of the commands that take an operand byte (R73). -/
def operandOps : List Byte := [0x11#8, 0x21#8, 0x31#8]

/-- The opcodes of the seven operand-less commands (R73). -/
def bareOps : List Byte := [0x10#8, 0x12#8, 0x20#8, 0x22#8, 0x30#8, 0x32#8, 0x33#8]

/-- A field pair is a command: the opcode is one of the ten, and an operand-less command has `d = 0x00` (R71, R74). -/
def CmdFields.wf (f : CmdFields) : Bool :=
  operandOps.contains f.op || (bareOps.contains f.op && f.d == 0x00#8)

/-- The constraints of R8: `BUF_CAP >= 65543` and `N_INST >= 1`. -/
abbrev Config.ok (c : Config) : Prop := 65543 ≤ c.bufCap ∧ 1 ≤ c.nInst

end Sys2Proof
end

