-- ==== Sys2Proof/Decode.lean ====
section
/-!
DEFINITION. Decode.lean: the command word read (R71 to R74) and written, and the rows of the opcode table as data.
-/
namespace Sys2Proof

/-- Why a word is illegal: the two causes that R201 names. Both give the one response `ILLEGAL`. -/
inductive Illegal where
  /-- the opcode is none of the ten -/
  | unknownOp
  /-- an operand-less command with `d` not `0x00` -/
  | strayOperand
  deriving DecidableEq, Repr

/-- What a command word is: a command, or illegal for a named reason. -/
inductive Decoded where
  | cmd (i : Instr)
  | illegal (why : Illegal)
  deriving DecidableEq, Repr

/-- `op = CMD[15:8]` (R71). -/
def opField (w : CmdWord) : Byte := w.extractLsb' 8 8

/-- `d = CMD[7:0]`, used as is (R72). -/
def operandField (w : CmdWord) : Byte := w.extractLsb' 0 8

/-- The two fields of a word (R71). -/
def fieldsOf (w : CmdWord) : CmdFields := { op := opField w, d := operandField w }

/-- An operand-less command: any `d` but `0x00` is illegal (R74). -/
def bareCmd (i : Instr) (d : Byte) : Decoded :=
  if d = 0x00#8 then .cmd i else .illegal .strayOperand

/-- The opcode map (R73); every other opcode is illegal (R74). -/
def decodeFields (f : CmdFields) : Decoded :=
  if f.op = 0x10#8 then bareCmd .c16Init f.d
  else if f.op = 0x11#8 then .cmd (.c16Upd f.d)
  else if f.op = 0x12#8 then bareCmd .c16Get f.d
  else if f.op = 0x20#8 then bareCmd .c32Init f.d
  else if f.op = 0x21#8 then .cmd (.c32Upd f.d)
  else if f.op = 0x22#8 then bareCmd .c32Get f.d
  else if f.op = 0x30#8 then bareCmd .fsClr f.d
  else if f.op = 0x31#8 then .cmd (.fsPush f.d)
  else if f.op = 0x32#8 then bareCmd .fsParse f.d
  else if f.op = 0x33#8 then bareCmd .fsLevel f.d
  else .illegal .unknownOp

/-- The decoder: total on the 65536 command words. -/
def decode (w : CmdWord) : Decoded := decodeFields (fieldsOf w)

/-- The opcode of a command (R73). -/
def Instr.opByte : Instr → Byte
  | .c16Init => 0x10#8
  | .c16Upd _ => 0x11#8
  | .c16Get => 0x12#8
  | .c32Init => 0x20#8
  | .c32Upd _ => 0x21#8
  | .c32Get => 0x22#8
  | .fsClr => 0x30#8
  | .fsPush _ => 0x31#8
  | .fsParse => 0x32#8
  | .fsLevel => 0x33#8

/-- The operand byte of a command; `0x00` where it has none (R71). -/
def Instr.operandByte : Instr → Byte
  | .c16Upd d | .c32Upd d | .fsPush d => d
  | .c16Init | .c16Get | .c32Init | .c32Get | .fsClr | .fsParse | .fsLevel => 0x00#8

/-- The encoder: `op` in bits 15..8, `d` in bits 7..0 (R71). -/
def encode (i : Instr) : CmdWord := i.opByte ++ i.operandByte

/-- One row of the opcode table (R73): `(CMD & mask) == match` selects it. -/
structure OpcodeRow where
  mnemonic : String
  value : CmdWord
  mask : CmdWord
  deriving DecidableEq, Repr

/-- The word satisfies the row's match and mask (R73). -/
def OpcodeRow.selects (r : OpcodeRow) (w : CmdWord) : Bool := w &&& r.mask == r.value

/-- The row of a command, as R73 prints it. -/
def Instr.row : Instr → OpcodeRow
  | .c16Init => ⟨"C16.INIT", 0x1000#16, 0xFFFF#16⟩
  | .c16Upd _ => ⟨"C16.UPD", 0x1100#16, 0xFF00#16⟩
  | .c16Get => ⟨"C16.GET", 0x1200#16, 0xFFFF#16⟩
  | .c32Init => ⟨"C32.INIT", 0x2000#16, 0xFFFF#16⟩
  | .c32Upd _ => ⟨"C32.UPD", 0x2100#16, 0xFF00#16⟩
  | .c32Get => ⟨"C32.GET", 0x2200#16, 0xFFFF#16⟩
  | .fsClr => ⟨"FS.CLR", 0x3000#16, 0xFFFF#16⟩
  | .fsPush _ => ⟨"FS.PUSH", 0x3100#16, 0xFF00#16⟩
  | .fsParse => ⟨"FS.PARSE", 0x3200#16, 0xFFFF#16⟩
  | .fsLevel => ⟨"FS.LEVEL", 0x3300#16, 0xFFFF#16⟩

/-- One command of each row, operands zero: to list the table. -/
def tableCommands : List Instr :=
  [.c16Init, .c16Upd 0, .c16Get, .c32Init, .c32Upd 0, .c32Get, .fsClr, .fsPush 0, .fsParse, .fsLevel]

/-- The opcode table: the ten rows of R73, in its order. -/
def opcodeRows : List OpcodeRow := tableCommands.map Instr.row

/-- The number of a word's `nbits` bits as a command word: the bits above `nbits` are zero; a number that needs more than
the 16 bits of R71 is no command word (log 7). -/
def tableWord (nbits w : Nat) : Option CmdWord :=
  if w % 2 ^ nbits < 2 ^ 16 then some (BitVec.ofNat 16 (w % 2 ^ nbits)) else none

/-- The command the decoder reads from the word of a table row, `none` where it is illegal. -/
def decodeTableWord (nbits w : Nat) : Option Instr :=
  match tableWord nbits w with
  | none => none
  | some c =>
    match decode c with
    | .cmd i => some i
    | .illegal _ => none

end Sys2Proof
end

