-- ==== Sys2Proof/Machine/Fetch.lean ====
section
/-!
DEFINITION. Machine/Fetch.lean: the host's next input taken and, if it is a command word, decoded. The block fetches no
instruction stream (R24): commands come from the host one at a time, in issue order (R50).
-/
namespace Sys2Proof.Machine

open Sys2Proof

/-- What the next input asks of the block: a command to execute in a state, or an outcome already settled. -/
inductive Fetched where
  | run (i : Instr) (s : State)
  | settled (o : Host.Outcome State Fault Refusal)

/-- A word on a channel: the channel selects the instance (R207); a legal word is a command, an illegal one responds
`ILLEGAL` and nothing else is evaluated (R74, R204). -/
def fetchWord (ch : Nat) (w : CmdWord) (s : State) : Fetched :=
  match decode w with
  | .cmd i => .run i { s with sel := ch }
  | .illegal _ => .settled (onChannel illegalWord { s with sel := ch })

/-- The next input, removed from the inputs. With none the block does nothing: only a command or a reset changes its
state (R9, R220, log 4). -/
def fetch (s : State) : Fetched :=
  match s.inputs with
  | [] => .settled (.next s)
  | .command ch w :: rest => fetchWord ch w { s with inputs := rest }
  | .readResponse ch :: rest => .settled (hostRead ch { s with inputs := rest })
  | .reset :: rest => .settled (.next (assertReset { s with inputs := rest }))

/-- The state with a command word as the very next input, on the selected channel (log 5). -/
def placeWord (s : State) (w : CmdWord) : State :=
  { s with inputs := .command s.sel w :: s.inputs }

end Sys2Proof.Machine
end

