-- ==== Sys2Proof/Machine/Assembler.lean ====
section
/-!
DEFINITION. Machine/Assembler.lean: the textual form of a command (R80) and the pseudo-commands (R81). Notation only: no
step uses it. Text is a list of characters.
-/
namespace Sys2Proof.Machine

open Sys2Proof

/-- The mnemonic of a command, upper case (R73, R80). -/
def mnemonicText : Instr → List Char
  | .c16Init => ['C', '1', '6', '.', 'I', 'N', 'I', 'T']
  | .c16Upd _ => ['C', '1', '6', '.', 'U', 'P', 'D']
  | .c16Get => ['C', '1', '6', '.', 'G', 'E', 'T']
  | .c32Init => ['C', '3', '2', '.', 'I', 'N', 'I', 'T']
  | .c32Upd _ => ['C', '3', '2', '.', 'U', 'P', 'D']
  | .c32Get => ['C', '3', '2', '.', 'G', 'E', 'T']
  | .fsClr => ['F', 'S', '.', 'C', 'L', 'R']
  | .fsPush _ => ['F', 'S', '.', 'P', 'U', 'S', 'H']
  | .fsParse => ['F', 'S', '.', 'P', 'A', 'R', 'S', 'E']
  | .fsLevel => ['F', 'S', '.', 'L', 'E', 'V', 'E', 'L']

/-- The hexadecimal digits, in order of value. -/
def hexDigits : List Char := ['0', '1', '2', '3', '4', '5', '6', '7', '8', '9', 'A', 'B', 'C', 'D', 'E', 'F']

/-- Lower-case digits are read too (log 13). -/
def hexDigitsLower : List Char := ['0', '1', '2', '3', '4', '5', '6', '7', '8', '9', 'a', 'b', 'c', 'd', 'e', 'f']

/-- The operand byte as one space, `0x` and two digits (R80). -/
def operandText (d : Byte) : List Char :=
  [' ', '0', 'x', hexDigits.getD (d.toNat / 16) '0', hexDigits.getD (d.toNat % 16) '0']

/-- The textual form of a command (R80). -/
def asmText (i : Instr) : List Char :=
  match i with
  | .c16Upd d | .c32Upd d | .fsPush d => mnemonicText i ++ operandText d
  | .c16Init | .c16Get | .c32Init | .c32Get | .fsClr | .fsParse | .fsLevel => mnemonicText i

/-- The value of a digit. -/
def hexValue (c : Char) : Option Nat :=
  match hexDigits.idxOf? c with
  | some n => some n
  | none => hexDigitsLower.idxOf? c

/-- What stands on a line of assembly text. -/
inductive AsmLine where
  /-- nothing, or only a comment -/
  | blank
  | cmd (i : Instr)
  /-- not the textual form of a command -/
  | bad
  deriving DecidableEq, Repr

/-- A line without its comment (R80: from `;` to the end) and without blanks at its end (log 13). -/
def lineText (l : List Char) : List Char :=
  ((l.takeWhile (· ≠ ';')).reverse.dropWhile (· = ' ')).reverse

/-- The operand read from its text. -/
def readOperand : List Char → Option Byte
  | [' ', '0', 'x', hi, lo] =>
    match hexValue hi, hexValue lo with
    | some h, some l => some (BitVec.ofNat 8 (16 * h + l))
    | _, _ => none
  | _ => none

/-- An operand after the mnemonic `m`, if the text begins with it. -/
def operandAfter (m t : List Char) : Option Byte :=
  if m.isPrefixOf t then readOperand (t.drop m.length) else none

/-- The operand-less commands, to look a line up in (R73). -/
def bareCommands : List Instr := [.c16Init, .c16Get, .c32Init, .c32Get, .fsClr, .fsParse, .fsLevel]

/-- The commands with an operand (R73), as makers of a command from its byte. -/
def operandCommands : List (Byte → Instr) := [.c16Upd, .c32Upd, .fsPush]

/-- The command whose textual form `t` is, if any. -/
def readCommand (t : List Char) : Option Instr :=
  match bareCommands.find? (fun i => mnemonicText i == t) with
  | some i => some i
  | none => operandCommands.findSome? (fun mk => (operandAfter (mnemonicText (mk 0)) t).map mk)

/-- One line of assembly text read (R80: one command per line). -/
def readLine (l : List Char) : AsmLine :=
  if lineText l = [] then .blank
  else
    match readCommand (lineText l) with
    | some i => .cmd i
    | none => .bad

/-- `C16.MSG b0 .. bn-1` (R81). -/
def c16Msg (bytes : List Byte) : List Instr := .c16Init :: bytes.map .c16Upd ++ [.c16Get]

/-- `C32.MSG b0 .. bn-1` (R81). -/
def c32Msg (bytes : List Byte) : List Instr := .c32Init :: bytes.map .c32Upd ++ [.c32Get]

/-- `FS.FEED b0 .. bn-1` (R81). -/
def fsFeed (bytes : List Byte) : List Instr := bytes.map .fsPush

end Sys2Proof.Machine
end

