-- ==== Sys2Proof/Machine/WireFrame.lean ====
section
/-!
DEFINITION. Machine/WireFrame.lean: the frame on the wire as `30_encoding.md` Part A lays it out (R60 to R66). The FS unit
never builds one; the layout is stated here so that claims about FS.PARSE can be.
-/
namespace Sys2Proof.Machine

open Sys2Proof

/-- The wire frame of R60: header, `u16LE(L)`, the `L` payload bytes, the two checksum-or-trailer bytes, footer. It is
the layout of a payload of at most 65535 bytes (R61). -/
def wireFrame (payload : List Byte) (trailer : Byte × Byte) : List Byte :=
  [Config.hdr0, Config.hdr1] ++ u16LE (BitVec.ofNat 16 payload.length) ++ payload ++
    [trailer.1, trailer.2] ++ [Config.ftr0, Config.ftr1]

end Sys2Proof.Machine
end

