-- ==== Sys2Proof/Machine/ContextCodec.lean ====
section
/-!
DEFINITION. Machine/ContextCodec.lean: CONTEXT, not part of the hardware (R5): the frame codec and the wire forms of
`43_context_codec_and_sessions.md` (R161 to R168, R171, R176, R179), as a harness around the block, and the error
taxonomy of R186. No step uses it.
-/
namespace Sys2Proof.Machine

open Sys2Proof

/-- The 16-byte XOR key, index 0 first (R162). -/
def xorKey : List Byte :=
  [0x16#8, 0x6C#8, 0x14#8, 0xE6#8, 0x2E#8, 0x91#8, 0x0D#8, 0x40#8,
   0x21#8, 0x35#8, 0xD5#8, 0x40#8, 0x13#8, 0x03#8, 0xE9#8, 0x80#8]

/-- `B'[i] = B[i] ^ KEY[i mod 16]`, counted from `i` (R163). -/
def xorFrom (i : Nat) : List Byte → List Byte
  | [] => []
  | b :: rest => (b ^^^ xorKey.getD (i % 16) 0x00#8) :: xorFrom (i + 1) rest

/-- Obfuscation of a body, key index 0 at its first byte; its own inverse (R163). -/
def obfuscate (body : List Byte) : List Byte := xorFrom 0 body

/-- `payload ++ u16LE(CRC16_XMODEM(payload))` (R161). -/
def plainBody (payload : List Byte) : List Byte := payload ++ u16LE (crc16Xmodem payload)

/-- The frame around a plain body of a payload of `len` bytes: header, `u16LE(len)`, the body, obfuscated or not, footer
(R161). -/
def frameAround (len : Nat) (body : List Byte) (xorEnabled : Bool) : List Byte :=
  [Config.hdr0, Config.hdr1] ++ u16LE (BitVec.ofNat 16 len) ++ (if xorEnabled then obfuscate body else body) ++
    [Config.ftr0, Config.ftr1]

/-- `packetize(payload, xorEnabled)` (R161). `none` above 65535 bytes: the source says nothing there (U6: refuse). -/
def packetize (payload : List Byte) (xorEnabled : Bool) : Option (List Byte) :=
  if payload.length ≤ 65535 then some (frameAround payload.length (plainBody payload) xorEnabled) else none

/-- The body of a parsed frame, `raw[4..5+L]` (R141, R171). -/
def bodyOf (payload raw : List Byte) : List Byte := (raw.drop 4).take (payload.length + 2)

/-- How `decode` came by its answer (R164). -/
inductive DecodeMode where
  | reversed | unmodified
  /-- neither reading begins with the identifier: the XOR-reversed one, tagged (R164, U10) -/
  | uncertain
  deriving DecidableEq, Repr

/-- The expected reply identifier (R167, R168). -/
def replyId : List Byte := [0x15#8, 0x05#8]

/-- A body without its two checksum-or-trailer bytes, which nobody checks (R165, N5, log 10). -/
def stripTrailer (body : List Byte) : List Byte := body.take (body.length - 2)

/-- `decode(bodyBytes)` (R164). Where both readings match the source is silent: a free value picks (U7, log 9). -/
def decodeBody (body : List Byte) : List Byte × DecodeMode :=
  let rev := obfuscate body
  match rev.take 2 == replyId, body.take 2 == replyId with
  | true, false => (stripTrailer rev, .reversed)
  | false, true => (stripTrailer body, .unmodified)
  | false, false => (stripTrailer rev, .uncertain)
  | true, true =>
    if Config.bothMatchPicksReversed body then (stripTrailer rev, .reversed)
    else (stripTrailer body, .unmodified)

/-- The handshake query payload (R166). -/
def queryPayload : List Byte := [0x14#8, 0x05#8, 0x04#8, 0x00#8, 0xFF#8, 0xFF#8, 0xFF#8, 0xFF#8]

/-- The shortest reply: 4-byte header and 16-byte version (R167). -/
def replyMinLength : Nat := 20

/-- The version string: 16 bytes at offset 4, up to the first NUL (R167, C5). -/
def replyVersion (payload : List Byte) : List Byte := ((payload.drop 4).take 16).takeWhile (· ≠ 0x00#8)

/-- The bootloader header: `magic:u32LE | total:u32LE | chunk:u16LE` (R176). -/
def bootHeader (total : Word32) (chunk : Word16) : List Byte :=
  u32LE 0x32445055#32 ++ u32LE total ++ u16LE chunk

/-- The chunk packet up to its checksum: `seq:u32LE | len:u16LE | data` (R179). -/
def chunkHead (seq : Word32) (data : List Byte) : List Byte :=
  u32LE seq ++ u16LE (BitVec.ofNat 16 data.length) ++ data

/-- The chunk packet: `seq:u32LE | len:u16LE | data | crc32:u32LE`, the CRC over `data` only (R179, R121). -/
def chunkPacket (seq : Word32) (data : List Byte) : List Byte := chunkHead seq data ++ u32LE (crc32 data)

/-! ### The same built with the block's commands (R171, R179) -/

/-- Commands issued to one instance one after the other: the instance after them, and the responses in order. -/
def drive : List (Inst → Inst × Response) → Inst → Inst × List Response
  | [], m => (m, [])
  | f :: fs, m => ((drive fs (f m).1).1, (f m).2 :: (drive fs (f m).1).2)

/-- `C16.MSG` (R81) as commands of the block. -/
def c16MsgCommands (bytes : List Byte) : List (Inst → Inst × Response) := c16Init :: bytes.map c16Upd ++ [c16Get]

/-- `C32.MSG` (R81) as commands of the block. -/
def c32MsgCommands (bytes : List Byte) : List (Inst → Inst × Response) := c32Init :: bytes.map c32Upd ++ [c32Get]

/-- The frame of a payload with the checksum that `C16.MSG` on the instance gives, low byte first (R171); the instance
holds the checksum afterwards. `none` as in `packetize`, or without a `VAL16` to append. -/
def drivePacketize (payload : List Byte) (xorEnabled : Bool) (m : Inst) : Inst × Option (List Byte) :=
  let r := drive (c16MsgCommands payload) m
  match r.2.getLast? with
  | some (.val16 v) =>
    (r.1, if payload.length ≤ 65535 then some (frameAround payload.length (payload ++ u16LE v) xorEnabled) else none)
  | _ => (r.1, none)

/-- The chunk packet with the checksum that `C32.MSG` on the instance gives, low byte first (R179); `none` without a
`VAL32` to append. -/
def driveChunk (seq : Word32) (data : List Byte) (m : Inst) : Inst × Option (List Byte) :=
  let r := drive (c32MsgCommands data) m
  match r.2.getLast? with
  | some (.val32 v) => (r.1, some (chunkHead seq data ++ u32LE v))
  | _ => (r.1, none)

/-! ### The error taxonomy -/

/-- The seven error classes of R186, all of them. -/
inductive ErrorClass where
  /-- no matching frame or line within the deadline -/
  | timeout
  /-- footer mismatch: arises in the block's FS.PARSE only, answered `NO_FRAME` there and surfaced by no session (R135) -/
  | malformedFrame
  /-- a reply without its required fixed fields -/
  | shortResponse
  /-- a chunk or firmware size out of bound -/
  | validationError
  /-- an explicit `'E'` answer to a chunk -/
  | deviceNak
  /-- a chunk's retries are used up -/
  | retryExhausted
  /-- the final sentinel was never observed -/
  | ambiguousOutcome
  deriving DecidableEq, Repr

/-- What R186 says becomes of an error. -/
inductive ErrorFate where
  /-- retried up to a bound, fatal when the bound is reached -/
  | retried
  /-- recovered silently, never surfaced to callers -/
  | silent
  /-- ends the current session -/
  | fatal
  /-- reported as a warning; the transfer may have succeeded -/
  | warning
  deriving DecidableEq, Repr

/-- The fate of each class (R186). -/
def ErrorClass.fate : ErrorClass → ErrorFate
  | .timeout | .deviceNak => .retried
  | .malformedFrame => .silent
  | .shortResponse | .validationError | .retryExhausted => .fatal
  | .ambiguousOutcome => .warning

end Sys2Proof.Machine
end

