-- ==== Sys2Proof/Machine/ContextHandshake.lean ====
section
/-!
DEFINITION. Machine/ContextHandshake.lean: CONTEXT, not part of the hardware (R5): the handshake session of
`43_context_codec_and_sessions.md` (R169 to R171) driving the FS unit. No step uses it. Time is an event (log 12).
-/
namespace Sys2Proof.Machine

open Sys2Proof

/-- `IDLE → SENT → (ACKED or TIMED_OUT) → DONE or FAILED` (R169). -/
inductive HandshakePhase where
  | idle | sent
  | acked (payload : List Byte)
  | timedOut
  | done (version : List Byte)
  /-- Timeout or ShortResponse (R169, R186) -/
  | failed (why : ErrorClass)
  deriving DecidableEq, Repr

/-- A handshake session and the block instance it drives. The source leaves open whether the query is obfuscated (N11)
and whether the buffer is cleared between attempts (N13): both are arguments. -/
structure Handshake where
  phase : HandshakePhase
  attempts : Nat
  inst : Inst
  written : List (List Byte)
  maxAttempts : Nat
  xorQuery : Bool
  clearBetween : Bool
  bufCap : Nat
  deriving DecidableEq, Repr

/-- What happens to a session. -/
inductive HandshakeEvent where
  /-- the software goes on: sends, checks the reply, or retries after the settle delay -/
  | goOn
  /-- a read of the stream returned these bytes -/
  | read (bytes : List Byte)
  /-- the attempt's timeout elapsed -/
  | deadline
  deriving DecidableEq, Repr

/-- FS.PARSE until `NO_FRAME`, at most `fuel` times; the bodies of the frames emitted, in order (R171, R233). -/
def drainFrames : Nat → Inst → Inst × List (List Byte)
  | 0, m => (m, [])
  | fuel + 1, m =>
    match fsParse m with
    | (t, .frame payload raw) => ((drainFrames fuel t).1, bodyOf payload raw :: (drainFrames fuel t).2)
    | (t, _) => (t, [])

/-- FS.PUSH of one byte; refused with `FULL`, the byte is pushed again after an FS.PARSE made room (R206, R234). -/
def feedByte (cap : Nat) (acc : Inst × List (List Byte)) (b : Byte) : Inst × List (List Byte) :=
  match fsPush cap b acc.1 with
  | (_, .full) =>
    let d := drainFrames (acc.1.buf.length + 1) acc.1
    ((fsPush cap b d.1).1, acc.2 ++ d.2)
  | (t, _) => (t, acc.2)

/-- One read: every byte pushed, then parsed until `NO_FRAME` (R171). -/
def feedRead (cap : Nat) (bytes : List Byte) (m : Inst) : Inst × List (List Byte) :=
  let fed := bytes.foldl (feedByte cap) (m, [])
  let d := drainFrames (fed.1.buf.length + 1) fed.1
  (d.1, fed.2 ++ d.2)

/-- The session accepts a decoded payload on its first byte (R168, R169). -/
def acceptsReply (payload : List Byte) : Bool := payload.head? == some 0x15#8

/-- The instance an attempt starts on: with the buffer cleared where the harness wants a clean start (R171, N13). -/
def Handshake.cleared (h : Handshake) : Inst := if h.clearBetween then (fsClr h.inst).1 else h.inst

/-- The query frame is built with the block's `C16.MSG` and written, and the attempt counted (R169, R171). -/
def Handshake.send (h : Handshake) : Handshake :=
  let r := drivePacketize queryPayload h.xorQuery h.cleared
  { h with
    phase := .sent
    attempts := h.attempts + 1
    inst := r.1
    written := h.written ++ r.2.toList }

/-- One event of a session (R169); an event that has no meaning in a phase changes nothing. -/
def Handshake.next (h : Handshake) (e : HandshakeEvent) : Handshake :=
  match h.phase, e with
  | .idle, .goOn => h.send
  | .sent, .read bytes =>
    let r := feedRead h.bufCap bytes h.inst
    match (r.2.map (fun body => (decodeBody body).1)).find? acceptsReply with
    | some payload => { h with inst := r.1, phase := .acked payload }
    | none => { h with inst := r.1 }
  | .sent, .deadline => { h with phase := .timedOut }
  | .timedOut, .goOn =>
    if h.attempts < h.maxAttempts then h.send else { h with phase := .failed .timeout }
  | .acked payload, .goOn =>
    if payload.length < replyMinLength then { h with phase := .failed .shortResponse }
    else { h with phase := .done (replyVersion payload) }
  | _, _ => h

/-- A session before its first attempt, with the source's `maxAttempts = 3` (R169), on a fresh instance. -/
def Handshake.start (xorQuery clearBetween : Bool) (bufCap : Nat) : Handshake :=
  { phase := .idle, attempts := 0, inst := Inst.reset, written := [], maxAttempts := 3,
    xorQuery := xorQuery, clearBetween := clearBetween, bufCap := bufCap }

end Sys2Proof.Machine
end

