-- ==== Sys2Proof/Machine/ContextTransfer.lean ====
section
/-!
DEFINITION. Machine/ContextTransfer.lean: CONTEXT, not part of the hardware (R5): the chunked transfer session of
`43_context_codec_and_sessions.md` (R175 to R182, R186). No step uses it. Time is an event (log 12).
-/
namespace Sys2Proof.Machine

open Sys2Proof

/-- The bounds the source names and does not value (N9, D23): arguments, within what R178 says of them. `MAX_CHUNK` fits
the `u16LE` field, and a 15-byte image is rejected; that `MAX_FW_SIZE` fits R176's `u32LE` field is DEDUCED (log 18). -/
structure TransferLimits where
  maxChunk : Nat
  minFw : Nat
  maxFw : Nat
  maxChunk_le : maxChunk ≤ 65535 := by decide
  minFw_gt : 15 < minFw := by decide
  maxFw_lt : maxFw < 2 ^ 32 := by decide
  deriving DecidableEq, Repr

/-- How AWAIT_FINAL ended (R177). -/
inductive FinalOutcome where
  | success | finalError
  /-- no final sentinel seen: neither success nor failure (R177, U9) -/
  | ambiguous
  deriving DecidableEq, Repr

/-- The states of R175. DESIGN CHOICE: a final-error sentinel ends in `done finalError`, not in `aborted` (log 14); a
session that validation rejects is in `aborted validationError` (log 15). R175, R177 and R178 do not say. -/
inductive TransferPhase where
  | awaitReady | sendGo | sendHeader | awaitStart | transfer | awaitFinal
  | done (how : FinalOutcome)
  /-- ValidationError or RetryExhausted (R178, R180, R186) -/
  | aborted (why : ErrorClass)
  deriving DecidableEq, Repr

/-- What a session logs: the timed-out waits that R177 says are logged, and the non-fatal errors of R186. -/
inductive TransferNote where
  /-- a wait ran out: for a text sentinel, after which the session proceeds anyway (R177), or for a chunk's answer (R180) -/
  | timeout (during : TransferPhase)
  /-- the device answered `'E'`, with its status byte if that came (R180) -/
  | deviceNak (status : Option Byte)
  /-- no final sentinel was seen: the warning of R186 -/
  | ambiguousOutcome
  deriving DecidableEq, Repr

/-- The class of R186 that a note belongs to. -/
def TransferNote.errorClass : TransferNote → ErrorClass
  | .timeout _ => .timeout
  | .deviceNak _ => .deviceNak
  | .ambiguousOutcome => .ambiguousOutcome

/-- A transfer session (R181) and the block instance it drives. The text of the go line is not given by the source (N14):
an argument. -/
structure Transfer where
  phase : TransferPhase
  image : List Byte
  chunk : Nat
  goLine : List Byte
  offset : Nat
  seq : Nat
  retries : Nat
  /-- an `'E'` was read and its status byte was not yet (R180) -/
  statusDue : Bool
  /-- bytes of the line being read, its newline not yet there (R177) -/
  lineSoFar : List Byte
  /-- bytes read from the stream and not yet taken by a wait -/
  unread : List Byte
  written : List (List Byte)
  /-- oldest first (R177, R186) -/
  log : List TransferNote
  inst : Inst
  deriving DecidableEq, Repr

/-- What happens to a session. -/
inductive TransferEvent where
  /-- the software goes on to its next write -/
  | goOn
  /-- a read of the stream returned these bytes, perhaps none (R184) -/
  | read (bytes : List Byte)
  /-- the phase's deadline passed -/
  | deadline
  deriving DecidableEq, Repr

/-- Upper case of an ASCII byte. -/
def asciiUpper (b : Byte) : Byte := if 0x61#8 ≤ b ∧ b ≤ 0x7A#8 then b - 0x20#8 else b

/-- `pat` stands somewhere in the text. -/
def hasSubstring (pat : List Byte) : List Byte → Bool
  | [] => pat.isEmpty
  | b :: rest => pat.isPrefixOf (b :: rest) || hasSubstring pat rest

/-- A line matches a sentinel: case-insensitively, as a substring (R177, which says 'as substring' of READY and START; for
OK and ERR see `Transfer.finalLine`). -/
def matchesSentinel (sentinel line : List Byte) : Bool := hasSubstring sentinel (line.map asciiUpper)

/-- `READY` -/
def readyText : List Byte := [0x52#8, 0x45#8, 0x41#8, 0x44#8, 0x59#8]
/-- `START` -/
def startText : List Byte := [0x53#8, 0x54#8, 0x41#8, 0x52#8, 0x54#8]
/-- `OK` -/
def okText : List Byte := [0x4F#8, 0x4B#8]
/-- `ERR` -/
def errText : List Byte := [0x45#8, 0x52#8, 0x52#8]

/-- The retry bound: five consecutive failures of one chunk abort (R180, R182). -/
def retryBound : Nat := 5

/-- The data of the chunk at the current offset; the last may be shorter (R180, R181). -/
def Transfer.data (t : Transfer) : List Byte := (t.image.drop t.offset).take t.chunk

/-- A note is logged. -/
def Transfer.note (t : Transfer) (n : TransferNote) : Transfer := { t with log := t.log ++ [n] }

/-- The current chunk is built with the block's `C32.MSG` and written (R179). -/
def Transfer.sendChunk (t : Transfer) : Transfer :=
  let r := driveChunk (BitVec.ofNat 32 t.seq) t.data t.inst
  { t with inst := r.1, written := t.written ++ r.2.toList }

/-- Into the TRANSFER state: its first chunk is sent, or nothing is left to send. -/
def Transfer.continue (t : Transfer) : Transfer :=
  if t.offset < t.image.length then { t with phase := .transfer }.sendChunk
  else { t with phase := .awaitFinal }

/-- The chunk was not acknowledged: one failure is counted, and it is sent again unchanged, or the session aborts with the
offset as it was (R180, R182). DESIGN CHOICE (log 16): a status byte still due at a deadline is waited for no longer. -/
def Transfer.retry (t : Transfer) : Transfer :=
  if t.retries + 1 < retryBound then { t with retries := t.retries + 1, statusDue := false }.sendChunk
  else { t with retries := t.retries + 1, statusDue := false, phase := .aborted .retryExhausted }

/-- The chunk was acknowledged with `'A'`: offset and sequence number advance (R180, R181). -/
def Transfer.acknowledge (t : Transfer) : Transfer :=
  { t with offset := t.offset + t.data.length, seq := t.seq + 1, retries := 0 }.continue

/-- A byte of the answer: `'A'` acknowledges; `'E'` is followed by one status byte, whatever it says, which makes it a
DeviceNak, and then the chunk is retried; any other byte retries (R180, R186, U11). -/
def Transfer.onReply (t : Transfer) (b : Byte) : Transfer :=
  if t.statusDue then (t.note (.deviceNak (some b))).retry
  else if b = 0x41#8 then t.acknowledge
  else if b = 0x45#8 then { t with statusDue := true }
  else t.retry

/-- The per-chunk deadline passed: the chunk is retried (R180). DESIGN CHOICE (log 16): with the status byte after an
`'E'` still due, the spec is silent; it counts as one failure, a DeviceNak without a status, and a status byte that comes
later is taken as a new answer. -/
def Transfer.onChunkDeadline (t : Transfer) : Transfer :=
  (t.note (if t.statusDue then .deviceNak none else .timeout t.phase)).retry

/-- A line read in AWAIT_FINAL (R177). DESIGN CHOICE: the final-error sentinel ends the session in `done finalError`
(log 14). DESIGN CHOICE: OK and ERR too are matched as substrings, which R177 says of READY and START only, so a line such
as BROKEN is a success (log 20). A line with both sentinels is settled by a free value (log 11). -/
def Transfer.finalLine (t : Transfer) (text : List Byte) : Transfer :=
  match matchesSentinel okText text, matchesSentinel errText text with
  | true, false => { t with phase := .done .success }
  | false, true => { t with phase := .done .finalError }
  | true, true => { t with phase := .done (if Config.bothFinalsPickOk text then .success else .finalError) }
  | false, false => t

/-- A whole line of text, in the three phases that wait for one (R177). -/
def Transfer.onLine (t : Transfer) (text : List Byte) : Transfer :=
  match t.phase with
  | .awaitReady => if matchesSentinel readyText text then { t with phase := .sendGo } else t
  | .awaitStart => if matchesSentinel startText text then t.continue else t
  | .awaitFinal => t.finalLine text
  | .sendGo | .sendHeader | .transfer | .done _ | .aborted _ => t

/-- The newline that ends a line of text: PRESUMED to be the ASCII line feed (log 17). -/
def newline : Byte := 0x0A#8

/-- A byte of text: the newline ends the line read so far, any other byte joins it (R177). -/
def Transfer.onText (t : Transfer) (b : Byte) : Transfer :=
  if b = newline then { t with lineSoFar := [] }.onLine t.lineSoFar
  else { t with lineSoFar := t.lineSoFar ++ [b] }

/-- The byte is taken by what the session waits for: text, or the answer to a chunk; `none` where it waits for nothing. -/
def Transfer.onByte (t : Transfer) (b : Byte) : Option Transfer :=
  match t.phase with
  | .awaitReady | .awaitStart | .awaitFinal => some (t.onText b)
  | .transfer => some (t.onReply b)
  | .sendGo | .sendHeader | .done _ | .aborted _ => none

/-- Bytes taken one by one while the session waits for some; what is left stays unread for the next wait. -/
def Transfer.consume (t : Transfer) : List Byte → Transfer
  | [] => { t with unread := [] }
  | b :: rest =>
    match t.onByte b with
    | some u => u.consume rest
    | none => { t with unread := b :: rest }

/-- The deadline of a text wait passed: logged, and the unfinished line is given up (R177, log 17). -/
def Transfer.giveUpLine (t : Transfer) : Transfer := { t.note (.timeout t.phase) with lineSoFar := [] }

/-- A deadline in each phase: proceed anyway (R177), retry the chunk (R180), or the ambiguous outcome with its warning
(R177, R186). -/
def Transfer.onDeadline (t : Transfer) : Transfer :=
  match t.phase with
  | .awaitReady => { t.giveUpLine with phase := .sendGo }
  | .awaitStart => t.giveUpLine.continue
  | .transfer => t.onChunkDeadline
  | .awaitFinal => { t.note .ambiguousOutcome with lineSoFar := [], phase := .done .ambiguous }
  | .sendGo | .sendHeader | .done _ | .aborted _ => t

/-- The software's next write: the go line, then the header (R175 to R177). -/
def Transfer.onGoOn (t : Transfer) : Transfer :=
  match t.phase with
  | .sendGo => { t with phase := .sendHeader, written := t.written ++ [t.goLine] }
  | .sendHeader =>
    { t with
      phase := .awaitStart
      written := t.written ++ [bootHeader (BitVec.ofNat 32 t.image.length) (BitVec.ofNat 16 t.chunk)] }
  | .awaitReady | .awaitStart | .transfer | .awaitFinal | .done _ | .aborted _ => t

/-- One event of a session (R175, R177, R180); an event that has no meaning in a phase changes nothing but the bytes kept
unread. -/
def Transfer.next (t : Transfer) : TransferEvent → Transfer
  | .goOn => t.onGoOn
  | .read bytes => t.consume (t.unread ++ bytes)
  | .deadline => t.onDeadline

/-- The sizes are within the bounds of R178. -/
abbrev TransferLimits.admits (lim : TransferLimits) (size chunk : Nat) : Prop :=
  (1 ≤ chunk ∧ chunk ≤ lim.maxChunk) ∧ lim.minFw ≤ size ∧ size ≤ lim.maxFw

/-- A transfer after the local checks of R178, on a fresh instance: out of bounds, it is rejected and nothing is ever sent.
DESIGN CHOICE: the rejected session is in `aborted validationError` (log 15). -/
def Transfer.start (lim : TransferLimits) (image : List Byte) (chunk : Nat) (goLine : List Byte) : Transfer :=
  { phase := if lim.admits image.length chunk then .awaitReady else .aborted .validationError
    image := image, chunk := chunk, goLine := goLine, offset := 0, seq := 0, retries := 0, statusDue := false,
    lineSoFar := [], unread := [], written := [], log := [], inst := Inst.reset }

end Sys2Proof.Machine
end

