-- ==== Sys2Proof/Machine/Flags.lean ====
section
/-!
DEFINITION. Machine/Flags.lean: the block has no flag that persists between commands (R25); what a flag would tell stands
in the response. Here are the status codes of the responses (R77) and the statuses each command may give.
-/
namespace Sys2Proof.Machine

open Sys2Proof

/-- The status of a response, without its value (R77). -/
inductive Status where
  | ok | val16 | val32 | level | noFrame | frame | full | illegal
  deriving DecidableEq, Repr

/-- The code column of R77. -/
def Status.code : Status → Byte
  | .ok => 0x00#8
  | .val16 => 0x01#8
  | .val32 => 0x02#8
  | .level => 0x03#8
  | .noFrame => 0x04#8
  | .frame => 0x05#8
  | .full => 0x06#8
  | .illegal => 0xFF#8

/-- The status of a response. -/
def Response.status : Response → Status
  | .ok => .ok
  | .val16 _ => .val16
  | .val32 _ => .val32
  | .level _ => .level
  | .noFrame => .noFrame
  | .frame _ _ => .frame
  | .full => .full
  | .illegal => .illegal

/-- The "produced by" column of R77, read by command. -/
def statusesOf : Instr → List Status
  | .c16Init | .c16Upd _ | .c32Init | .c32Upd _ | .fsClr => [.ok]
  | .c16Get => [.val16]
  | .c32Get => [.val32]
  | .fsPush _ => [.ok, .full]
  | .fsParse => [.noFrame, .frame]
  | .fsLevel => [.level]

end Sys2Proof.Machine
end

