-- ==== Sys2Proof/Safety.lean ====
section
/-!
DEFINITION. Safety.lean: what a safe state is, and the words the claims are stated in.
-/
namespace Sys2Proof.Machine

open Sys2Proof

/-- The channel that an input names is one the block has (R207). -/
def HostInput.wf (c : Config) : HostInput → Bool
  | .command ch _ => decide (ch < c.nInst)
  | .readResponse ch => decide (ch < c.nInst)
  | .reset => true

/-- A well-formed state: R8's constraints, `N_INST` instances (R31), every buffer within `BUF_CAP` (R33), the selected
channel and the channels of the inputs to come among the block's (R207). -/
abbrev State.wf (s : State) : Prop :=
  s.cfg.ok ∧ s.ports.length = s.cfg.nInst ∧ (∀ p ∈ s.ports, Memory.wf s.cfg.bufCap p.inst.buf) ∧
    s.sel < s.cfg.nInst ∧ ∀ e ∈ s.inputs, e.wf s.cfg = true

/-- `p` is the instance, with its responses, on the channel that a command executes on. -/
abbrev State.serves (s : State) (p : Port) : Prop := s.ports[s.sel]? = some p

/-- A command ran on the port `p`: its instance is `m` now, and `r` was given. -/
abbrev State.answered (s : State) (p : Port) (m : Inst) (r : Response) : Host.Outcome State Fault Refusal :=
  .next (s.answer p m r)

/-- What a command on the selected channel never touches: the other channels, the parameters, the selection, the inputs. -/
abbrev OthersUntouched (s t : State) : Prop :=
  (∀ ch, ch ≠ s.sel → t.ports[ch]? = s.ports[ch]?) ∧ t.cfg = s.cfg ∧ t.sel = s.sel ∧ t.inputs = s.inputs

/-- Exactly one response was added, behind the earlier ones (R70). -/
abbrev OneResponse (p q : Port) : Prop := ∃ r, q.unread = p.unread ++ [r]

/-- Two instances hold the same in the state of one unit (R55). -/
def SameFor (u : FunUnit) (m n : Inst) : Prop :=
  match u with
  | .c16 => m.crc16 = n.crc16
  | .c32 => m.crc32 = n.crc32
  | .fs => m.buf = n.buf

/-- A safe step: the machine goes on, in a well-formed state. -/
def SafeStep (s : State) : Prop := ∃ t, step s = .next t ∧ t.wf

/-- The adjacent pair `AB CD` at index `i` (R131). -/
abbrev HeaderAt (buf : List Byte) (i : Nat) : Prop :=
  buf[i]? = some Config.hdr0 ∧ buf[i + 1]? = some Config.hdr1

/-- `h` is the least index of a header (R131). -/
abbrev FirstHeader (buf : List Byte) (h : Nat) : Prop :=
  HeaderAt buf h ∧ ∀ j < h, ¬ HeaderAt buf j

/-- No header anywhere (R131). -/
abbrev NoHeader (buf : List Byte) : Prop := ∀ j < buf.length, ¬ HeaderAt buf j

/-- The pair of bytes at index `i` is the footer `DC BA` (R135). -/
abbrev FooterAt (buf : List Byte) (i : Nat) : Prop :=
  buf[i]? = some Config.ftr0 ∧ buf[i + 1]? = some Config.ftr1

/-- A complete frame with a matching footer stands at the first header of the buffer (R136). -/
def FrameReady (buf : List Byte) : Prop :=
  ∃ h lo hi, FirstHeader buf h ∧ buf[h + 2]? = some lo ∧ buf[h + 3]? = some hi ∧
    h + (lo.toNat + 256 * hi.toNat + 8) ≤ buf.length ∧ FooterAt buf (h + (lo.toNat + 256 * hi.toNat) + 6)

/-- One command and then another, if the first goes on. -/
def execThen (i j : Instr) (s : State) : Host.Outcome State Fault Refusal :=
  match exec i s with
  | .next t => exec j t
  | .fault f => .fault f
  | .refused r => .refused r

/-- Two adjacent commands may be exchanged on the port `p`: in either order the same instance results, and each command has
the response it had in the other order (R55). -/
def MayBeExchanged (i j : Instr) (s : State) (p : Port) : Prop :=
  ∃ m ri rj,
    execThen i j s = .next { s with ports := s.ports.set s.sel { inst := m, unread := p.unread ++ [ri, rj] } } ∧
    execThen j i s = .next { s with ports := s.ports.set s.sel { inst := m, unread := p.unread ++ [rj, ri] } }

/-- The host issues the commands `is` on channel `ch`, before anything it had in mind. -/
def State.issue (s : State) (ch : Nat) (is : List Instr) : State :=
  { s with inputs := is.map (fun i => .command ch (encode i)) ++ s.inputs }

/-- The bytes that a list of commands gives to the CRC16 unit, in order (R21). -/
def c16Operands : List Instr → List Byte
  | [] => []
  | i :: is =>
    match i with
    | .c16Upd d => d :: c16Operands is
    | .c16Init | .c16Get | .c32Init | .c32Upd _ | .c32Get | .fsClr | .fsPush _ | .fsParse | .fsLevel => c16Operands is

/-- The bytes that a list of commands gives to the CRC32 unit, in order (R22). -/
def c32Operands : List Instr → List Byte
  | [] => []
  | i :: is =>
    match i with
    | .c32Upd d => d :: c32Operands is
    | .c16Init | .c16Upd _ | .c16Get | .c32Init | .c32Get | .fsClr | .fsPush _ | .fsParse | .fsLevel => c32Operands is

/-- The bytes that the FS unit took in: operands of the FS.PUSH commands answered `OK` (R137). -/
def acceptedBytes : List Instr → List Response → List Byte
  | .fsPush d :: is, .ok :: rs => d :: acceptedBytes is rs
  | _ :: is, _ :: rs => acceptedBytes is rs
  | _, _ => []

/-- FS.PARSE after every single FS.PUSH (R232). -/
def parseAfterEveryPush (bytes : List Byte) : List Instr := bytes.flatMap (fun b => [.fsPush b, .fsParse])

/-- The sequence with bit `k` of its byte `n` flipped (R97). -/
def flipBit (s : List Byte) (n k : Nat) : List Byte := s.modify n (fun b => b ^^^ (1#8 <<< k))

/-- Bytewise exclusive-or of two sequences (R98). -/
def xorBytes (s t : List Byte) : List Byte := List.zipWith (· ^^^ ·) s t

/-- An event that fails the chunk a transfer waits on: the deadline, a byte that is neither `'A'` nor `'E'`, or `'E'` with
its status byte (R180, R182: "times out or is NAK'd"). -/
def TransferEvent.failsChunk : TransferEvent → Bool
  | .deadline => true
  | .read [b] => b != 0x41#8 && b != 0x45#8
  | .read [b, _] => b == 0x45#8
  | .read [] | .read (_ :: _ :: _ :: _) | .goOn => false

end Sys2Proof.Machine
end

