-- ==== Sys2Proof/Certificates/Slice0/Obligations.lean ====
section
/-!
DEFINITION. Certificates/Slice0/Obligations.lean: the statements for the provers. Each docstring names the rule it
formalises; OBLIGATIONS.json says which are the spec's and which are derived.
-/
open Sys2Proof Sys2Proof.Machine

/-! ### The command word -/

/-- V-ENC-1 (R73): the listed legal words, and the three `UPD`/`PUSH` of the byte zero. -/
def Obligations.DecodeReadsTheListedWords : Prop :=
  decode 0x1000 = .cmd .c16Init ∧ decode 0x1131 = .cmd (.c16Upd 0x31) ∧ decode 0x1200 = .cmd .c16Get ∧
  decode 0x2000 = .cmd .c32Init ∧ decode 0x21FF = .cmd (.c32Upd 0xFF) ∧ decode 0x2200 = .cmd .c32Get ∧
  decode 0x3000 = .cmd .fsClr ∧ decode 0x31AB = .cmd (.fsPush 0xAB) ∧ decode 0x3200 = .cmd .fsParse ∧
  decode 0x3300 = .cmd .fsLevel ∧
  decode 0x1100 = .cmd (.c16Upd 0) ∧ decode 0x2100 = .cmd (.c32Upd 0) ∧ decode 0x3100 = .cmd (.fsPush 0)

/-- R71 to R73: a command's word decodes to it, and no other word does. -/
def Obligations.DecodeAndEncodeAgree : Prop :=
  (∀ i : Instr, decode (encode i) = .cmd i) ∧ ∀ (w : CmdWord) (i : Instr), decode w = .cmd i → encode i = w

/-- R73: a word is a command exactly when it satisfies the match and mask of a row; the ten rows are disjoint. -/
def Obligations.OpcodeRowsSelectExactlyTheCommands : Prop :=
  opcodeRows.length = 10 ∧
  (∀ (w : CmdWord) (i : Instr), decode w = .cmd i → i.row ∈ opcodeRows ∧ i.row.selects w = true) ∧
  (∀ w : CmdWord, ∀ r ∈ opcodeRows, r.selects w = true → ∃ i, decode w = .cmd i ∧ i.row = r) ∧
  ∀ w : CmdWord, ∀ r ∈ opcodeRows, ∀ r' ∈ opcodeRows, r.selects w = true → r'.selects w = true → r = r'

/-- R74: a word that matches no row changes no instance and gets `ILLEGAL`; 775 words are legal, 64761 are not. -/
def Obligations.IllegalWordChangesNothingAndRespondsIllegal : Prop :=
  (∀ (s : State) (ch : Nat) (p : Port) (w : CmdWord) (rest : List HostInput),
    s.inputs = .command ch w :: rest → s.ports[ch]? = some p → (∀ r ∈ opcodeRows, r.selects w = false) →
    step s = .next (({ s with sel := ch, inputs := rest } : State).answer p p.inst .illegal)) ∧
  { w : CmdWord | ∃ r ∈ opcodeRows, r.selects w = true }.ncard = 775 ∧
  { w : CmdWord | ∀ r ∈ opcodeRows, r.selects w = false }.ncard = 64761

/-- R50, R207: a legal word on a channel is executed as the command it decodes to, on that channel's instance. -/
def Obligations.StepRunsTheDecodedCommand : Prop :=
  ∀ (s : State) (ch : Nat) (w : CmdWord) (i : Instr) (rest : List HostInput),
    s.inputs = .command ch w :: rest → decode w = .cmd i →
    step s = exec i { s with sel := ch, inputs := rest }

/-- R70, R210: any of the 65536 words, in any state, gets exactly one response, behind the earlier ones; only the
instance of its channel may change. -/
def Obligations.EveryWordGetsExactlyOneResponse : Prop :=
  ∀ (s : State) (ch : Nat) (p : Port) (w : CmdWord) (rest : List HostInput),
    s.inputs = .command ch w :: rest → s.ports[ch]? = some p →
    ∃ m r, step s = .next
      { s with sel := ch, inputs := rest, ports := s.ports.set ch { inst := m, unread := p.unread ++ [r] } }

/-- R77: the statuses each command gives, with the path each of two tells (FS.PUSH: accepted or at capacity; FS.PARSE:
footer matched or not, R136), `ILLEGAL` for exactly the words of no row, the range of `LEVEL`, and the codes. -/
def Obligations.ResponseStatusesFollowTheTable : Prop :=
  (∀ (i : Instr) (s : State) (p : Port), s.serves p →
    ∃ m r, exec i s = s.answered p m r ∧ r.status ∈ statusesOf i) ∧
  (∀ (s : State) (p : Port) (d : Byte), s.serves p →
    ∃ m r, exec (.fsPush d) s = s.answered p m r ∧
      (r.status = .ok ↔ p.inst.buf.length < s.cfg.bufCap) ∧ (r.status = .full ↔ s.cfg.bufCap ≤ p.inst.buf.length)) ∧
  (∀ (s : State) (p : Port), s.serves p →
    ∃ m r, exec .fsParse s = s.answered p m r ∧
      (r.status = .frame ↔ FrameReady p.inst.buf) ∧ (r.status = .noFrame ↔ ¬ FrameReady p.inst.buf)) ∧
  (∀ (s : State) (p : Port), s.serves p → Memory.wf s.cfg.bufCap p.inst.buf →
    ∃ n, exec .fsLevel s = s.answered p p.inst (.level n) ∧ n ≤ s.cfg.bufCap) ∧
  (∀ (s : State) (ch : Nat) (p : Port) (w : CmdWord) (rest : List HostInput),
    s.inputs = .command ch w :: rest → s.ports[ch]? = some p →
    ∃ m r, step s = ({ s with sel := ch, inputs := rest } : State).answered p m r ∧
      (r.status = .illegal ↔ ∀ row ∈ opcodeRows, row.selects w = false)) ∧
  [Status.ok, .val16, .val32, .level, .noFrame, .frame, .full, .illegal].map Status.code =
    [0x00, 0x01, 0x02, 0x03, 0x04, 0x05, 0x06, 0xFF]

/-- R80: the text of a command is read back as it, with or without a comment. -/
def Obligations.AssemblyTextReadsBack : Prop :=
  ∀ (i : Instr) (comment : List Char),
    readLine (asmText i) = .cmd i ∧ readLine (asmText i ++ [' ', ';'] ++ comment) = .cmd i

/-- R205: a command word answered `ILLEGAL` or `FULL` has changed nothing: its own instance and the others are as they
were. -/
def Obligations.RefusedCommandChangesNothing : Prop :=
  ∀ (s t : State) (ch : Nat) (p q : Port) (w : CmdWord) (rest : List HostInput) (r : Response),
    s.inputs = .command ch w :: rest → s.ports[ch]? = some p → step s = .next t → t.ports[ch]? = some q →
    q.unread = p.unread ++ [r] → r = .illegal ∨ r = .full →
    q.inst = p.inst ∧ ∀ o, o ≠ ch → t.ports[o]? = s.ports[o]?

/-! ### Reset, the host's other inputs, invariants -/

/-- R220: the reset input puts every instance at R32's values and loses the unread responses; no other input but a
command changes an instance. -/
def Obligations.ResetInputResetsEveryInstance : Prop :=
  (∀ (s : State) (rest : List HostInput), s.inputs = .reset :: rest →
    ∃ t, step s = .next t ∧ t.cfg = s.cfg ∧ t.inputs = rest ∧
      t.ports = List.replicate s.cfg.nInst { inst := { crc16 := 0x0000, crc32 := 0xFFFFFFFF, buf := [] }, unread := [] }) ∧
  ∀ s t : State, step s = .next t → (∀ ch w rest, s.inputs ≠ .command ch w :: rest) →
    (∀ rest, s.inputs ≠ .reset :: rest) → t.ports.map Port.inst = s.ports.map Port.inst

/-- R32: what reset leaves in every instance, for any parameters; a first `UPD` needs no `INIT` after it. That the model's
one reset state carries R8's default parameters is the model's choice (log 3). -/
def Obligations.ResetLeavesTheInitialValues : Prop :=
  (∀ c : Config, (State.resetWith c).ports.length = c.nInst ∧
    ∀ p ∈ (State.resetWith c).ports, p.inst.crc16 = 0x0000 ∧ p.inst.crc32 = 0xFFFFFFFF ∧ p.inst.buf = []) ∧
  State.reset = State.resetWith { bufCap := 65543, nInst := 1 } ∧
  ∀ (s : State) (p : Port), s.serves p → p.inst = Inst.reset →
    exec .c16Init s = s.answered p p.inst .ok ∧ exec .c32Init s = s.answered p p.inst .ok

/-- R222: `FS.CLR`, `C16.INIT`, `C32.INIT`, in any order, bring an instance to its reset state. -/
def Obligations.InitCommandsRestoreTheResetInstance : Prop :=
  ∀ (is : List Instr), is.Perm [.fsClr, .c16Init, .c32Init] →
    ∀ (s : State) (ch : Nat) (p : Port), s.ports[ch]? = some p →
      ∃ t, core.run 3 (s.issue ch is) = .next t ∧ t.inputs = s.inputs ∧
        t.ports = s.ports.set ch { inst := Inst.reset, unread := p.unread ++ [.ok, .ok, .ok] }

/-- R50, R70 ("responses come back in command order"), with the model's own host read (log 4): a read takes the oldest
unread response and changes no instance. -/
def Obligations.HostReadTakesTheOldestResponse : Prop :=
  ∀ (s : State) (ch : Nat) (p : Port) (r : Response) (rs : List Response) (rest : List HostInput),
    s.inputs = .readResponse ch :: rest → s.ports[ch]? = some p → p.unread = r :: rs →
    step s = .next { s with inputs := rest, ports := s.ports.set ch { p with unread := rs } }

/-- R33, R31, R8: every step keeps a well-formed state well-formed: no buffer outgrows `BUF_CAP`, the instances stay. -/
def Obligations.StepKeepsTheStateWellFormed : Prop :=
  ∀ s t : State, s.wf → step s = .next t → t.wf

/-- R32, R33: the state after reset is well-formed, for all parameters that R8 allows. -/
def Obligations.ResetStateIsWellFormed : Prop :=
  ∀ c : Config, c.ok → (State.resetWith c).wf

/-- R210: no fault, no stuck state: a well-formed state always has a next one. -/
def Obligations.WellFormedStateAlwaysSteps : Prop :=
  ∀ s : State, s.wf → ∃ t, step s = .next t

/-! ### The CRC16 unit -/

/-- R93. -/
def Obligations.C16InitSetsTheInitialValue : Prop :=
  ∀ (s : State) (p : Port), s.serves p →
    exec .c16Init s = s.answered p { p.inst with crc16 := 0x0000 } .ok

/-- R94. -/
def Obligations.C16UpdAbsorbsOneByte : Prop :=
  ∀ (s : State) (p : Port) (d : Byte), s.serves p →
    exec (.c16Upd d) s = s.answered p { p.inst with crc16 := crc16Step p.inst.crc16 d } .ok

/-- R95. -/
def Obligations.C16GetReturnsTheRegister : Prop :=
  ∀ (s : State) (p : Port), s.serves p →
    exec .c16Get s = s.answered p p.inst (.val16 p.inst.crc16)

/-- R21, R55: what a CRC16 command leaves as it was. -/
def Obligations.C16CommandsFrame : Prop :=
  ∀ (i : Instr) (s t : State) (p : Port), i.unit = .c16 → s.serves p → exec i s = .next t →
    OthersUntouched s t ∧
    ∃ q, t.serves q ∧ OneResponse p q ∧ q.inst.crc32 = p.inst.crc32 ∧
      (∀ a : Nat, q.inst.buf[a]? = p.inst.buf[a]?) ∧ (i = .c16Get → q.inst.crc16 = p.inst.crc16)

/-- R99: the worked values, the register after each byte, the bit-level traces. -/
def Obligations.Crc16WorkedValues : Prop :=
  [[], [0x00], [0x01], [0x80], [0xFF], [0x41], [0x31], [0x00, 0x31], [0x12, 0x34], [0x15, 0x05], [0xFF, 0xFF],
    [0x31, 0x32, 0x33, 0x34, 0x35, 0x36, 0x37, 0x38, 0x39],
    [0x14, 0x05, 0x04, 0x00, 0xFF, 0xFF, 0xFF, 0xFF]].map crc16Xmodem =
  [0x0000, 0x0000, 0x1021, 0x9188, 0x1EF0, 0x58E5, 0x2672, 0x2672, 0x13C6, 0xAC23, 0x1D0F, 0x31C3, 0xD410] ∧
  (List.range 9).map (fun n => crc16Xmodem ([0x31, 0x32, 0x33, 0x34, 0x35, 0x36, 0x37, 0x38, 0x39].take (n + 1))) =
    [0x2672, 0x20B5, 0x9752, 0xD789, 0x546C, 0x20E4, 0x86D6, 0x9015, 0x31C3] ∧
  (List.range 8).map (fun n => crc16Xmodem ([0x14, 0x05, 0x04, 0x00, 0xFF, 0xFF, 0xFF, 0xFF].take (n + 1))) =
    [0x52B5, 0x9F12, 0x20D2, 0xF662, 0xF329, 0xE88C, 0xEED6, 0xD410] ∧
  (List.range 9).map (fun n => crc16Bit^[n] (0x0000 ^^^ byteAtTop16 0x31)) =
    [0x3100, 0x6200, 0xC400, 0x9821, 0x2063, 0x40C6, 0x818C, 0x1339, 0x2672] ∧
  (List.range 9).map (fun n => crc16Bit^[n] (0x0000 ^^^ byteAtTop16 0x80)) =
    [0x8000, 0x1021, 0x2042, 0x4084, 0x8108, 0x1231, 0x2462, 0x48C4, 0x9188] ∧
  (List.range 9).map (fun n => crc16Bit^[n] (0x0000 ^^^ byteAtTop16 0x01)) =
    [0x0100, 0x0200, 0x0400, 0x0800, 0x1000, 0x2000, 0x4000, 0x8000, 0x1021]

/-- R91, said in numbers: the byte at the top, then eight times: doubled modulo 2^16, and the polynomial where bit 15
was set. -/
def Obligations.Crc16StepIsTheShiftLoop : Prop :=
  ∀ (c : Word16) (b : Byte), (crc16Step c b).toNat =
    (fun n : Nat => if 2 ^ 15 ≤ n then (2 * n % 2 ^ 16) ^^^ 0x1021 else 2 * n % 2 ^ 16)^[8] (c.toNat ^^^ (b.toNat * 2 ^ 8))

/-- R96: `C16.INIT`, then any commands without a `C16.INIT` among them, then `C16.GET`: the last response is the
CRC16-XMODEM of the bytes that the `C16.UPD`s gave, whatever other commands (other units', `C16.GET`) are interleaved; on a
fresh instance without the leading `C16.INIT` too; and the register holds the running checksum. -/
def Obligations.C16CommandsComputeTheChecksum : Prop :=
  ∀ (is : List Instr), (∀ i ∈ is, i ≠ .c16Init) → ∀ (s : State) (ch : Nat) (p : Port), s.ports[ch]? = some p →
    (∃ t q rs, core.run (is.length + 2) (s.issue ch (.c16Init :: is ++ [.c16Get])) = .next t ∧
      t.ports[ch]? = some q ∧ q.inst.crc16 = crc16Xmodem (c16Operands is) ∧ rs.length = is.length + 1 ∧
      q.unread = p.unread ++ rs ++ [.val16 (crc16Xmodem (c16Operands is))]) ∧
    (p.inst = Inst.reset →
      ∃ t q rs, core.run (is.length + 1) (s.issue ch (is ++ [.c16Get])) = .next t ∧
        t.ports[ch]? = some q ∧ rs.length = is.length ∧
        q.unread = p.unread ++ rs ++ [.val16 (crc16Xmodem (c16Operands is))])

/-- R97: 0 on the empty sequence; flipping any single bit of the input changes the output. -/
def Obligations.SingleBitFlipChangesCrc16 : Prop :=
  crc16Xmodem [] = 0 ∧
  ∀ (s : List Byte) (n k : Nat), n < s.length → k < 8 → crc16Xmodem (flipBit s n k) ≠ crc16Xmodem s

/-- R98: leading zeros are invisible; linearity; the residue of the checksum appended high byte first is zero, and not
so low byte first. -/
def Obligations.Crc16ZeroInitialValueConsequences : Prop :=
  (∀ s : List Byte, crc16Xmodem (0x00 :: s) = crc16Xmodem s) ∧
  (∀ n : Nat, crc16Xmodem (List.replicate n 0x00) = 0x0000) ∧
  (∀ s t : List Byte, s.length = t.length → crc16Xmodem (xorBytes s t) = crc16Xmodem s ^^^ crc16Xmodem t) ∧
  (∀ s : List Byte, crc16Xmodem
    (s ++ [(crc16Xmodem s).extractLsb' 8 8, (crc16Xmodem s).extractLsb' 0 8]) = 0x0000) ∧
  crc16Xmodem (queryPayload ++ [0xD4, 0x10]) = 0x0000 ∧ crc16Xmodem (queryPayload ++ [0x10, 0xD4]) = 0x4358

open Polynomial in
/-- R100: over GF(2), the message times `x^16` is a multiple of `G = x^16 + x^12 + x^5 + 1` plus the checksum, whose bit
`i` is the coefficient of `x^i`. -/
def Obligations.Crc16IsThePolynomialRemainder : Prop :=
  ∀ s : List Byte, ∃ quotient : (ZMod 2)[X],
    (s.foldl (fun m b => m * X ^ 8 + ∑ i ∈ Finset.range 8, if b.getLsbD i then X ^ i else 0) 0) * X ^ 16 =
      quotient * (X ^ 16 + X ^ 12 + X ^ 5 + 1) +
        ∑ i ∈ Finset.range 16, if (crc16Xmodem s).getLsbD i then X ^ i else 0

/-! ### The CRC32 unit -/

/-- R113. -/
def Obligations.C32InitSetsTheInitialValue : Prop :=
  ∀ (s : State) (p : Port), s.serves p →
    exec .c32Init s = s.answered p { p.inst with crc32 := 0xFFFFFFFF } .ok

/-- R114. -/
def Obligations.C32UpdAbsorbsOneByte : Prop :=
  ∀ (s : State) (p : Port) (d : Byte), s.serves p →
    exec (.c32Upd d) s = s.answered p { p.inst with crc32 := crc32Step p.inst.crc32 d } .ok

/-- R115: the complement goes out; the register keeps the running value. -/
def Obligations.C32GetReturnsTheComplement : Prop :=
  ∀ (s : State) (p : Port), s.serves p →
    exec .c32Get s = s.answered p p.inst (.val32 (p.inst.crc32 ^^^ 0xFFFFFFFF))

/-- R22, R55: what a CRC32 command leaves as it was. -/
def Obligations.C32CommandsFrame : Prop :=
  ∀ (i : Instr) (s t : State) (p : Port), i.unit = .c32 → s.serves p → exec i s = .next t →
    OthersUntouched s t ∧
    ∃ q, t.serves q ∧ OneResponse p q ∧ q.inst.crc16 = p.inst.crc16 ∧
      (∀ a : Nat, q.inst.buf[a]? = p.inst.buf[a]?) ∧ (i = .c32Get → q.inst.crc32 = p.inst.crc32)

/-- R117, R118: the reference vector, the worked values, the register after each byte, the traces. -/
def Obligations.Crc32WorkedValues : Prop :=
  [[], [0x00], [0x01], [0x80], [0xFF], [0x61], [0x41], [0x31], [0x00, 0x31], [0x12, 0x34], [0x34, 0x12],
    [0x00, 0x00, 0x00, 0x00], [0xFF, 0xFF, 0xFF, 0xFF], [0x55, 0x50, 0x44, 0x32],
    [0x14, 0x05, 0x04, 0x00, 0xFF, 0xFF, 0xFF, 0xFF],
    [0x31, 0x32, 0x33, 0x34, 0x35, 0x36, 0x37, 0x38, 0x39]].map crc32 =
  [0x00000000, 0xD202EF8D, 0xA505DF1B, 0x3FBA6CAD, 0xFF000000, 0xE8B7BE43, 0xD3D99E8B, 0x83DCEFB7, 0x100712C5,
    0x18999699, 0x094A9040, 0x2144DF1C, 0xFFFFFFFF, 0xEDE9D5BD, 0x8AC1ADEA, 0xCBF43926] ∧
  (List.range 9).map (fun n =>
      ([0x31, 0x32, 0x33, 0x34, 0x35, 0x36, 0x37, 0x38, 0x39].take (n + 1)).foldl crc32Step 0xFFFFFFFF) =
    [0x7C231048, 0xB0ACBB32, 0x77B79C2D, 0x641C1F5C, 0x340AC5E3, 0xF68D2C9E, 0xAFFC9660, 0x651F2550, 0x340BC6D9] ∧
  (List.range 9).map (fun n => crc32Bit^[n] (0xFFFFFFFF ^^^ byteAtBottom32 0x00)) =
    [0xFFFFFFFF, 0x92477CDF, 0xA49B3D4F, 0xBFF51D87, 0xB2420DE3, 0xB49985D1, 0xB7F441C8, 0x5BFA20E4, 0x2DFD1072] ∧
  (List.range 9).map (fun n => crc32Bit^[n] (0xFFFFFFFF ^^^ byteAtBottom32 0x01)) =
    [0xFFFFFFFE, 0x7FFFFFFF, 0xD2477CDF, 0x849B3D4F, 0xAFF51D87, 0xBA420DE3, 0xB09985D1, 0xB5F441C8, 0x5AFA20E4] ∧
  (List.range 9).map (fun n => crc32Bit^[n] (0xFFFFFFFF ^^^ byteAtBottom32 0x61)) =
    [0xFFFFFF9E, 0x7FFFFFCF, 0xD2477CC7, 0x849B3D43, 0xAFF51D81, 0xBA420DE0, 0x5D2106F0, 0x2E908378, 0x174841BC] ∧
  crc32Step 0 0x00 = 0x00000000 ∧ crc32Step 0 0x01 = 0x77073096 ∧ crc32Step 0 0x80 = 0xEDB88320

/-- R111, said in numbers: the byte at the bottom, then eight times: halved, and the reflected polynomial where bit 0
was set. -/
def Obligations.Crc32StepIsTheShiftLoop : Prop :=
  ∀ (c : Word32) (b : Byte), (crc32Step c b).toNat =
    (fun n : Nat => if n % 2 = 1 then (n / 2) ^^^ 0xEDB88320 else n / 2)^[8] (c.toNat ^^^ b.toNat)

/-- R116: as R96 for the CRC32 unit; the response is complemented, the register is not. -/
def Obligations.C32CommandsComputeTheChecksum : Prop :=
  ∀ (is : List Instr), (∀ i ∈ is, i ≠ .c32Init) → ∀ (s : State) (ch : Nat) (p : Port), s.ports[ch]? = some p →
    (∃ t q rs, core.run (is.length + 2) (s.issue ch (.c32Init :: is ++ [.c32Get])) = .next t ∧
      t.ports[ch]? = some q ∧ q.inst.crc32 ^^^ 0xFFFFFFFF = crc32 (c32Operands is) ∧ rs.length = is.length + 1 ∧
      q.unread = p.unread ++ rs ++ [.val32 (crc32 (c32Operands is))]) ∧
    (p.inst = Inst.reset →
      ∃ t q rs, core.run (is.length + 1) (s.issue ch (is ++ [.c32Get])) = .next t ∧
        t.ports[ch]? = some q ∧ rs.length = is.length ∧
        q.unread = p.unread ++ rs ++ [.val32 (crc32 (c32Operands is))])

/-- R119: after any message and its checksum low byte first, the register is `0xDEBB20E3` and `C32.GET` gives
`0x2144DF1C`. -/
def Obligations.Crc32ResidueIsConstant : Prop :=
  ∀ s : List Byte, (s ++ u32LE (crc32 s)).foldl crc32Step 0xFFFFFFFF = 0xDEBB20E3 ∧
    crc32 (s ++ u32LE (crc32 s)) = 0x2144DF1C

/-- R120: two sequences of the same length that differ in exactly one bit have different CRC32s. -/
def Obligations.SingleBitFlipChangesCrc32 : Prop :=
  ∀ (s : List Byte) (n k : Nat), n < s.length → k < 8 → crc32 (flipBit s n k) ≠ crc32 s

/-! ### The FS unit -/

/-- R131: `find_header` is the least index of an adjacent `AB CD`, `none` when there is none, which is always so below
two bytes. -/
def Obligations.FindHeaderIsTheLeastIndex : Prop :=
  (∀ (s : List Byte) (h : Nat), findHeader s = some h ↔ FirstHeader s h) ∧
  (∀ s : List Byte, findHeader s = none ↔ NoHeader s) ∧
  (∀ (s : List Byte) (h : Nat), findHeader s = some h → h + 2 ≤ s.length) ∧
  ∀ s : List Byte, s.length < 2 → findHeader s = none

/-- R132: without a header the entire buffer goes; with one, the bytes before it go for good, whatever the response, and
a `NO_FRAME` costs at most the one byte of step 6 besides. -/
def Obligations.ParseHuntDiscardsTheNoise : Prop :=
  ∀ (s : State) (p : Port), s.serves p →
    (NoHeader p.inst.buf → exec .fsParse s = s.answered p { p.inst with buf := [] } .noFrame) ∧
    ∀ h, FirstHeader p.inst.buf h →
      ∃ k r, exec .fsParse s = s.answered p { p.inst with buf := p.inst.buf.drop (h + k) } r ∧
        (r = .noFrame → k ≤ 1)

/-- R133: with fewer than 4 bytes from the header on, wait; the header and any first length byte stay. -/
def Obligations.ParseWaitsForTheLengthField : Prop :=
  ∀ (s : State) (p : Port) (h : Nat), s.serves p → FirstHeader p.inst.buf h → p.inst.buf.length < h + 4 →
    exec .fsParse s = s.answered p { p.inst with buf := p.inst.buf.drop h } .noFrame

/-- R134: the length is little-endian, `T = L + 8` does not wrap, and with fewer than `T` bytes from the header on, wait. -/
def Obligations.ParseWaitsForTheWholeFrame : Prop :=
  ∀ (s : State) (p : Port) (h : Nat) (lo hi : Byte), s.serves p → FirstHeader p.inst.buf h →
    p.inst.buf[h + 2]? = some lo → p.inst.buf[h + 3]? = some hi →
    p.inst.buf.length < h + ((lo.toNat + 256 * hi.toNat) + 8) →
    exec .fsParse s = s.answered p { p.inst with buf := p.inst.buf.drop h } .noFrame

/-- R135: the footer at `T-2`, `T-1` decides: the frame goes out and off the buffer, or exactly one byte goes. -/
def Obligations.ParseChecksTheFooterOnly : Prop :=
  ∀ (s : State) (p : Port) (h L : Nat) (lo hi : Byte), s.serves p → FirstHeader p.inst.buf h →
    p.inst.buf[h + 2]? = some lo → p.inst.buf[h + 3]? = some hi → L = lo.toNat + 256 * hi.toNat →
    h + (L + 8) ≤ p.inst.buf.length →
    (FooterAt p.inst.buf (h + L + 6) →
      exec .fsParse s = s.answered p { p.inst with buf := p.inst.buf.drop (h + (L + 8)) }
        (.frame ((p.inst.buf.drop (h + 4)).take L) ((p.inst.buf.drop h).take (L + 8)))) ∧
    (¬ FooterAt p.inst.buf (h + L + 6) →
      exec .fsParse s = s.answered p { p.inst with buf := p.inst.buf.drop (h + 1) } .noFrame)

/-- R23, R40, R55: what an FS command leaves as it was: both CRC registers; every byte of the buffer that is not removed
from the front stays, in order; FS.PUSH stores at the back only; FS.LEVEL changes nothing. -/
def Obligations.FsCommandsFrame : Prop :=
  ∀ (i : Instr) (s t : State) (p : Port), i.unit = .fs → s.serves p → exec i s = .next t →
    OthersUntouched s t ∧
    ∃ q, t.serves q ∧ OneResponse p q ∧ q.inst.crc16 = p.inst.crc16 ∧ q.inst.crc32 = p.inst.crc32 ∧
      (i = .fsLevel → ∀ a : Nat, q.inst.buf[a]? = p.inst.buf[a]?) ∧
      (∀ d, i = .fsPush d → ∀ a : Nat, a ≠ p.inst.buf.length → q.inst.buf[a]? = p.inst.buf[a]?) ∧
      (i = .fsParse → ∃ k ≤ p.inst.buf.length, ∀ a : Nat, q.inst.buf[a]? = p.inst.buf[k + a]?) ∧
      (i = .fsClr → ∀ a : Nat, q.inst.buf[a]? = none)

/-- R137: appended where there is room, refused and forgotten where there is none. -/
def Obligations.FsPushAppendsOrRefuses : Prop :=
  ∀ (s : State) (p : Port) (d : Byte), s.serves p →
    (p.inst.buf.length < s.cfg.bufCap →
      exec (.fsPush d) s = s.answered p { p.inst with buf := p.inst.buf ++ [d] } .ok) ∧
    (s.cfg.bufCap ≤ p.inst.buf.length → exec (.fsPush d) s = s.answered p p.inst .full)

/-- R138. -/
def Obligations.FsClrEmptiesTheBuffer : Prop :=
  ∀ (s : State) (p : Port), s.serves p → exec .fsClr s = s.answered p { p.inst with buf := [] } .ok

/-- R139. -/
def Obligations.FsLevelReportsTheLength : Prop :=
  ∀ (s : State) (p : Port), s.serves p → exec .fsLevel s = s.answered p p.inst (.level p.inst.buf.length)

/-- R140, R141: whatever the body holds, after noise without a header: the frame is delivered as it stood when the two
bytes at the length-implied position are the footer, and one byte is dropped when not. -/
def Obligations.ParseNeverLooksAtTheBody : Prop :=
  ∀ (s : State) (p : Port) (noise payload rest : List Byte) (lo hi t0 t1 f0 f1 : Byte),
    s.serves p → FirstHeader (noise ++ [0xAB, 0xCD]) noise.length →
    payload.length = lo.toNat + 256 * hi.toNat →
    p.inst.buf = noise ++ ([0xAB, 0xCD, lo, hi] ++ payload ++ [t0, t1, f0, f1]) ++ rest →
    exec .fsParse s =
      if f0 = 0xDC ∧ f1 = 0xBA then
        s.answered p { p.inst with buf := rest } (.frame payload ([0xAB, 0xCD, lo, hi] ++ payload ++ [t0, t1, f0, f1]))
      else
        s.answered p { p.inst with buf := [0xCD, lo, hi] ++ payload ++ [t0, t1, f0, f1] ++ rest } .noFrame

/-- R144: what every FS.PARSE does: it empties the buffer, or waits with the header at the front, or drops one byte
after the noise, or removes a whole frame after the noise. -/
def Obligations.EveryParseDoesOneOfFourThings : Prop :=
  ∀ (s : State) (p : Port), s.serves p →
    ∃ buf r, exec .fsParse s = s.answered p { p.inst with buf := buf } r ∧
      ((NoHeader p.inst.buf ∧ buf = [] ∧ r = .noFrame) ∨
        ∃ h, FirstHeader p.inst.buf h ∧
          ((buf = p.inst.buf.drop h ∧ HeaderAt buf 0 ∧ r = .noFrame) ∨
            (buf = p.inst.buf.drop (h + 1) ∧ r = .noFrame) ∨
            ∃ payload raw, r = .frame payload raw ∧ 8 ≤ raw.length ∧ p.inst.buf.drop h = raw ++ buf))

/-- R146: on a full buffer FS.PARSE makes room, and the FS.PUSH after it is accepted. -/
def Obligations.FullBufferIsAlwaysRelieved : Prop :=
  ∀ (s : State) (p : Port), s.cfg.ok → s.serves p → p.inst.buf.length = s.cfg.bufCap →
    ∃ m r, exec .fsParse s = s.answered p m r ∧ m.buf.length < s.cfg.bufCap ∧
      ∀ d, exec (.fsPush d) (s.answer p m r) =
        (s.answer p m r).answered { inst := m, unread := p.unread ++ [r] } { m with buf := m.buf ++ [d] } .ok

/-- R149, first sentence: over any run of commands, every emitted frame is a contiguous run of the bytes taken in, of the
wire form, and the buffer is what is left at the end of them. -/
def Obligations.EmittedFramesAreRunsOfThePushedBytes : Prop :=
  ∀ (is : List Instr) (s : State) (ch : Nat) (p : Port), s.ports[ch]? = some p →
    ∃ t q rs, core.run is.length (s.issue ch is) = .next t ∧ t.ports[ch]? = some q ∧
      q.unread = p.unread ++ rs ∧ rs.length = is.length ∧
      q.inst.buf <:+ p.inst.buf ++ acceptedBytes is rs ∧
      ∀ payload raw, .frame payload raw ∈ rs →
        raw <:+: p.inst.buf ++ acceptedBytes is rs ∧
        ∃ lo hi t0 t1, raw = [0xAB, 0xCD, lo, hi] ++ payload ++ [t0, t1, 0xDC, 0xBA] ∧
          payload.length = lo.toNat + 256 * hi.toNat

/-- R232, the extreme case: a host that parses after every single push, from an empty buffer, never gets a frame. -/
def Obligations.ParsingAfterEveryPushNeverYieldsAFrame : Prop :=
  ∀ (bytes : List Byte) (s : State) (ch : Nat) (p : Port), s.ports[ch]? = some p → p.inst.buf = [] → 0 < s.cfg.bufCap →
    ∃ t q, core.run (2 * bytes.length) (s.issue ch (parseAfterEveryPush bytes)) = .next t ∧ t.ports[ch]? = some q ∧
      q.inst.buf = [] ∧ q.unread = p.unread ++ bytes.flatMap (fun _ => [.ok, .noFrame])

/-- R142, R143, R144: FS.PARSE issued over and over comes to rest after at most as many calls as the buffer has bytes: one
more call changes nothing. -/
def Obligations.RepeatedParsingComesToRest : Prop :=
  ∀ (s : State) (ch : Nat) (p : Port), s.ports[ch]? = some p →
    ∃ k ≤ p.inst.buf.length, ∃ t q,
      core.run k (s.issue ch (List.replicate k .fsParse)) = .next t ∧ t.ports[ch]? = some q ∧
      exec .fsParse { t with sel := ch } = ({ t with sel := ch } : State).answered q q.inst .noFrame

/-! ### Isolation -/

/-- R31: a command on a channel writes that instance only, and reads that instance only: from two machines that agree on
it and on `BUF_CAP`, the instance and its responses come out the same. -/
def Obligations.CommandTouchesItsOwnInstanceOnly : Prop :=
  ∀ (s s' : State) (ch : Nat) (p : Port) (w : CmdWord) (rest rest' : List HostInput),
    s.inputs = .command ch w :: rest → s'.inputs = .command ch w :: rest' →
    s.ports[ch]? = some p → s'.ports[ch]? = some p → s.cfg.bufCap = s'.cfg.bufCap →
    ∃ t t', step s = .next t ∧ step s' = .next t' ∧ t.ports[ch]? = t'.ports[ch]? ∧
      (∀ o, o ≠ ch → t.ports[o]? = s.ports[o]?) ∧ ∀ o, o ≠ ch → t'.ports[o]? = s'.ports[o]?

/-- R55: a command reads and writes only the state of its own unit, and two adjacent commands of different units may be
exchanged: the same instance in the end, each with the response it had; in every unit there are two that may not. -/
def Obligations.UnitsShareNoState : Prop :=
  (∀ (i : Instr) (s s' : State) (p p' : Port), s.serves p → s'.serves p' → SameFor i.unit p.inst p'.inst →
    s.cfg.bufCap = s'.cfg.bufCap →
    ∃ m m' r, exec i s = s.answered p m r ∧ exec i s' = s'.answered p' m' r ∧ SameFor i.unit m m' ∧
      ∀ u, u ≠ i.unit → SameFor u m p.inst) ∧
  (∀ (i j : Instr) (s : State) (p : Port), i.unit ≠ j.unit → s.serves p → MayBeExchanged i j s p) ∧
  ∀ u : FunUnit, ∃ (i j : Instr) (s : State) (p : Port),
    i.unit = u ∧ j.unit = u ∧ s.serves p ∧ ¬ MayBeExchanged i j s p

/-- R56: two adjacent command words on different channels may be exchanged: every instance and every response channel is
the same in the end. -/
def Obligations.InstancesShareNoState : Prop :=
  ∀ (s s' : State) (a b : Nat) (v w : CmdWord) (rest : List HostInput),
    a ≠ b → a < s.ports.length → b < s.ports.length →
    s.inputs = .command a v :: .command b w :: rest → s' = { s with inputs := .command b w :: .command a v :: rest } →
    ∃ t t', core.run 2 s = .next t ∧ core.run 2 s' = .next t' ∧ t.ports = t'.ports ∧
      t.inputs = rest ∧ t'.inputs = rest

/-! ### With the context harness (file 43): the block against what software sends -/

/-- R161, R136: a packetized payload pushed into an empty buffer is delivered by one FS.PARSE, raw and whole. -/
def Obligations.PacketizedPayloadIsDelivered : Prop :=
  ∀ (payload frame : List Byte) (x : Bool), packetize payload x = some frame →
    ∀ (s : State) (ch : Nat) (p : Port), s.cfg.ok → s.ports[ch]? = some p → p.inst.buf = [] →
      ∃ t, core.run (frame.length + 1) (s.issue ch (fsFeed frame ++ [.fsParse])) = .next t ∧
        t.ports = s.ports.set ch
          { inst := p.inst
            unread := p.unread ++ List.replicate frame.length .ok ++
              [.frame ((if x then obfuscate (plainBody payload) else payload).take payload.length) frame] }

/-- R163: byte `i` of an obfuscated body meets `KEY[i mod 16]`, and obfuscating twice gives the body back. -/
def Obligations.ObfuscationIsItsOwnInverse : Prop :=
  ∀ body : List Byte, obfuscate (obfuscate body) = body ∧ (obfuscate body).length = body.length ∧
    ∀ (i : Nat) (b : Byte), body[i]? = some b → (obfuscate body)[i]? = (xorKey[i % 16]?).map (b ^^^ ·)

/-- R165 as far as R164 carries it (log 10): the payload comes back from its obfuscated body, unless that body itself
begins with the reply identifier. -/
def Obligations.DecodeUndoesAnObfuscatedBody : Prop :=
  ∀ payload : List Byte, (obfuscate (plainBody payload)).take 2 ≠ replyId →
    (decodeBody (obfuscate (plainBody payload))).1 = payload

/-- R171, R179: the frame and the chunk packet that the harness builds with the block's `C16.MSG` and `C32.MSG` are the
codec's, and the instance holds the checksum's register afterwards; sending the query leaves `D410` in `crc16`. -/
def Obligations.DrivenChecksumsMatchTheCodec : Prop :=
  (∀ (payload : List Byte) (x : Bool) (m : Inst),
    drivePacketize payload x m = ({ m with crc16 := crc16Xmodem payload }, packetize payload x)) ∧
  (∀ (seq : Word32) (data : List Byte) (m : Inst),
    driveChunk seq data m = ({ m with crc32 := data.foldl crc32Step 0xFFFFFFFF }, some (chunkPacket seq data))) ∧
  ∀ h : Handshake, h.send.inst.crc16 = 0xD410 ∧
    h.send.written = h.written ++ (packetize queryPayload h.xorQuery).toList

/-- R178: the listed sizes are rejected, and whatever happens afterwards nothing is ever written (that the session is in
`aborted` is the model's choice, log 15). -/
def Obligations.TransferValidationRejectsWithoutWriting : Prop :=
  ∀ (lim : TransferLimits) (image : List Byte) (chunk : Nat) (goLine : List Byte) (es : List TransferEvent),
    chunk = 0 ∨ lim.maxChunk < chunk ∨ image.length = 15 ∨ image.length < lim.minFw ∨ lim.maxFw < image.length →
    (es.foldl Transfer.next (Transfer.start lim image chunk goLine)).phase = .aborted .validationError ∧
      (es.foldl Transfer.next (Transfer.start lim image chunk goLine)).written = []

/-- R180, R182: a chunk that fails is sent again unchanged up to four times; the fifth failure in a row aborts with
RetryExhausted; offset and sequence number stay. -/
def Obligations.FiveFailuresAbortTheTransfer : Prop :=
  ∀ (t : Transfer) (fs : List TransferEvent),
    t.phase = .transfer → t.retries = 0 → t.statusDue = false → t.unread = [] →
    fs.length ≤ 5 → (∀ f ∈ fs, f.failsChunk = true) →
    (fs.foldl Transfer.next t).phase = (if fs.length = 5 then .aborted .retryExhausted else .transfer) ∧
      (fs.foldl Transfer.next t).offset = t.offset ∧ (fs.foldl Transfer.next t).seq = t.seq ∧
      (fs.foldl Transfer.next t).written =
        t.written ++ List.replicate (min fs.length 4) (chunkPacket (BitVec.ofNat 32 t.seq) t.data)
end

