-- ==== Sys2Proof/Laws/Context.lean ====
section
/-!
SUPPORT. Laws/Context.lean: what driving the block with the commands of a message gives, and what a transfer's shared
operations leave as it was.
-/
namespace Sys2Proof.Machine

open Sys2Proof

/-- Commands driven in two parts. -/
theorem drive_append (fs gs : List (Inst → Inst × Response)) (m : Inst) :
    drive (fs ++ gs) m = ((drive gs (drive fs m).1).1, (drive fs m).2 ++ (drive gs (drive fs m).1).2) := by
  induction fs generalizing m with
  | nil => rfl
  | cons f fs ih => simp [drive, ih]

/-- `C16.UPD` of every byte leaves the running checksum (R92, R94). -/
theorem drive_c16Upd (bytes : List Byte) (m : Inst) :
    drive (bytes.map c16Upd) m =
      ({ m with crc16 := bytes.foldl crc16Step m.crc16 }, List.replicate bytes.length .ok) := by
  induction bytes generalizing m with
  | nil => rfl
  | cons b bytes ih => simp [drive, ih, c16Upd, List.replicate_succ]

/-- `C32.UPD` of every byte leaves the running checksum (R112, R114). -/
theorem drive_c32Upd (bytes : List Byte) (m : Inst) :
    drive (bytes.map c32Upd) m =
      ({ m with crc32 := bytes.foldl crc32Step m.crc32 }, List.replicate bytes.length .ok) := by
  induction bytes generalizing m with
  | nil => rfl
  | cons b bytes ih => simp [drive, ih, c32Upd, List.replicate_succ]

/-- A session that waits for nothing keeps the bytes of a read for later. -/
theorem consume_of_none {t : Transfer} (h : ∀ b, t.onByte b = none) (bytes : List Byte) :
    t.consume bytes = { t with unread := bytes } := by
  cases bytes with
  | nil => rfl
  | cons b rest => simp [Transfer.consume, h b]

@[simp] theorem note_log (t : Transfer) (n : TransferNote) : (t.note n).log = t.log ++ [n] := rfl
@[simp] theorem note_phase (t : Transfer) (n : TransferNote) : (t.note n).phase = t.phase := rfl
@[simp] theorem note_offset (t : Transfer) (n : TransferNote) : (t.note n).offset = t.offset := rfl
@[simp] theorem note_seq (t : Transfer) (n : TransferNote) : (t.note n).seq = t.seq := rfl
@[simp] theorem note_retries (t : Transfer) (n : TransferNote) : (t.note n).retries = t.retries := rfl
@[simp] theorem note_written (t : Transfer) (n : TransferNote) : (t.note n).written = t.written := rfl
@[simp] theorem note_data (t : Transfer) (n : TransferNote) : (t.note n).data = t.data := rfl

@[simp] theorem sendChunk_phase (t : Transfer) : t.sendChunk.phase = t.phase := rfl
@[simp] theorem sendChunk_offset (t : Transfer) : t.sendChunk.offset = t.offset := rfl
@[simp] theorem sendChunk_seq (t : Transfer) : t.sendChunk.seq = t.seq := rfl
@[simp] theorem sendChunk_retries (t : Transfer) : t.sendChunk.retries = t.retries := rfl
@[simp] theorem sendChunk_statusDue (t : Transfer) : t.sendChunk.statusDue = t.statusDue := rfl
@[simp] theorem sendChunk_data (t : Transfer) : t.sendChunk.data = t.data := rfl
@[simp] theorem sendChunk_log (t : Transfer) : t.sendChunk.log = t.log := rfl

/-- A retry never moves the offset or the sequence number (R180, R182). -/
theorem retry_offset (t : Transfer) : t.retry.offset = t.offset ∧ t.retry.seq = t.seq := by
  unfold Transfer.retry
  split <;> exact ⟨rfl, rfl⟩

end Sys2Proof.Machine
end

