-- ==== Sys2Proof/Laws/Crc.lean ====
section
/-!
SUPPORT. Laws/Crc.lean: the bit steps and byte steps are linear over GF(2) and lose nothing: the facts that the
properties of the checksums rest on (R97, R98, R119, R120).
-/
namespace Sys2Proof.Machine

open Sys2Proof

/-! ### One bit -/

theorem crc16Bit_xor (a b : Word16) : crc16Bit (a ^^^ b) = crc16Bit a ^^^ crc16Bit b := by
  unfold crc16Bit
  rw [BitVec.getLsbD_xor]
  cases a.getLsbD 15 <;> cases b.getLsbD 15 <;> ext i <;>
    simp only [BitVec.getElem_xor, BitVec.getElem_shiftLeft, Bool.false_eq_true, if_true, if_false, Bool.xor_true,
      Bool.xor_false, Bool.not_true, Bool.not_false] <;>
    cases Config.poly16[i] <;> by_cases hi : i < 1 <;> simp [hi]

theorem crc32Bit_xor (a b : Word32) : crc32Bit (a ^^^ b) = crc32Bit a ^^^ crc32Bit b := by
  unfold crc32Bit
  rw [BitVec.getLsbD_xor]
  cases a.getLsbD 0 <;> cases b.getLsbD 0 <;> ext i <;>
    simp only [BitVec.getElem_xor, BitVec.getElem_ushiftRight, Bool.false_eq_true, if_true, if_false, Bool.xor_true,
      Bool.xor_false, Bool.not_true, Bool.not_false, BitVec.getLsbD_xor] <;>
    cases Config.poly32r[i] <;> simp

/-- The polynomial has a constant term, so a bit step maps only 0 to 0. -/
theorem eq_zero_of_crc16Bit {c : Word16} (h : crc16Bit c = 0) : c = 0 := by
  unfold crc16Bit at h
  cases hb : c.getLsbD 15
  · rw [hb] at h
    simp only [Bool.false_eq_true, if_false] at h
    apply BitVec.eq_of_getLsbD_eq
    intro k hk
    by_cases hk' : k = 15
    · subst hk'
      rw [hb]
      rfl
    · have := congrArg (fun x => x.getLsbD (k + 1)) h
      simp [BitVec.getLsbD_shiftLeft] at this
      simpa using this (by omega)
  · rw [hb] at h
    simp only [if_true] at h
    have := congrArg (fun x => x.getLsbD 0) h
    simp [Config.poly16] at this

/-- The polynomial has an `x^32` term, so a bit step maps only 0 to 0. -/
theorem eq_zero_of_crc32Bit {c : Word32} (h : crc32Bit c = 0) : c = 0 := by
  unfold crc32Bit at h
  cases hb : c.getLsbD 0
  · rw [hb] at h
    simp only [Bool.false_eq_true, if_false] at h
    apply BitVec.eq_of_getLsbD_eq
    intro k hk
    rcases k with _ | k
    · simpa using hb
    · have := congrArg (fun x => x.getLsbD k) h
      simp only [BitVec.getLsbD_ushiftRight] at this
      simpa [Nat.add_comm] using this
  · rw [hb] at h
    simp only [if_true] at h
    have := congrArg (fun x => x.getLsbD 31) h
    simp [Config.poly32r] at this

/-! ### Some bits -/

theorem crc16Bit_iterate_xor (n : Nat) (a b : Word16) : crc16Bit^[n] (a ^^^ b) = crc16Bit^[n] a ^^^ crc16Bit^[n] b := by
  induction n generalizing a b with
  | zero => rfl
  | succ n ih => simp only [Function.iterate_succ_apply, crc16Bit_xor, ih]

theorem crc32Bit_iterate_xor (n : Nat) (a b : Word32) : crc32Bit^[n] (a ^^^ b) = crc32Bit^[n] a ^^^ crc32Bit^[n] b := by
  induction n generalizing a b with
  | zero => rfl
  | succ n ih => simp only [Function.iterate_succ_apply, crc32Bit_xor, ih]

theorem eq_zero_of_crc16Bit_iterate {n : Nat} {c : Word16} (h : crc16Bit^[n] c = 0) : c = 0 := by
  induction n generalizing c with
  | zero => exact h
  | succ n ih => exact eq_zero_of_crc16Bit (ih (by simpa using h))

theorem eq_zero_of_crc32Bit_iterate {n : Nat} {c : Word32} (h : crc32Bit^[n] c = 0) : c = 0 := by
  induction n generalizing c with
  | zero => exact h
  | succ n ih => exact eq_zero_of_crc32Bit (ih (by simpa using h))

/-! ### One byte -/

theorem byteAtTop16_xor (a b : Byte) : byteAtTop16 (a ^^^ b) = byteAtTop16 a ^^^ byteAtTop16 b := by
  unfold byteAtTop16
  ext i
  simp only [BitVec.truncate_eq_setWidth, BitVec.setWidth_xor, BitVec.getElem_shiftLeft, BitVec.getElem_xor]
  by_cases h : i < 8 <;> simp [h]

theorem byteAtBottom32_xor (a b : Byte) : byteAtBottom32 (a ^^^ b) = byteAtBottom32 a ^^^ byteAtBottom32 b := by
  simp [byteAtBottom32]

theorem crc16Step_xor (c d : Word16) (a b : Byte) :
    crc16Step (c ^^^ d) (a ^^^ b) = crc16Step c a ^^^ crc16Step d b := by
  unfold crc16Step
  rw [byteAtTop16_xor, ← crc16Bit_iterate_xor]
  congr 1
  ac_rfl

theorem crc32Step_xor (c d : Word32) (a b : Byte) :
    crc32Step (c ^^^ d) (a ^^^ b) = crc32Step c a ^^^ crc32Step d b := by
  unfold crc32Step
  rw [byteAtBottom32_xor, ← crc32Bit_iterate_xor]
  congr 1
  ac_rfl

/-- The same byte from two register values never gives the same value. -/
theorem crc16Step_left_injective {c d : Word16} {b : Byte} (h : crc16Step c b = crc16Step d b) : c = d := by
  have e : crc16Step (c ^^^ d) (b ^^^ b) = 0 := by rw [crc16Step_xor, h, BitVec.xor_self]; rfl
  have e0 := eq_zero_of_crc16Bit_iterate e
  rw [BitVec.xor_self] at e0
  exact BitVec.xor_eq_zero_iff.mp (by simpa [byteAtTop16] using e0)

theorem crc32Step_left_injective {c d : Word32} {b : Byte} (h : crc32Step c b = crc32Step d b) : c = d := by
  have e : crc32Step (c ^^^ d) (b ^^^ b) = 0 := by rw [crc32Step_xor, h, BitVec.xor_self]; rfl
  have e0 := eq_zero_of_crc32Bit_iterate e
  rw [BitVec.xor_self] at e0
  exact BitVec.xor_eq_zero_iff.mp (by simpa [byteAtBottom32] using e0)

end Sys2Proof.Machine
end

