-- ==== Sys2Proof/Laws/Decode.lean ====
section
/-!
SUPPORT. Laws/Decode.lean: a command word and its two fields carry the same bits (R71).
-/
namespace Sys2Proof

@[simp] theorem opField_append (a b : Byte) : opField (a ++ b : BitVec 16) = a := by
  ext k hk
  simp only [opField, BitVec.getElem_extractLsb', BitVec.getLsbD_append]
  rw [if_neg (by omega), Nat.add_sub_cancel_left, ← BitVec.getLsbD_eq_getElem]

@[simp] theorem operandField_append (a b : Byte) : operandField (a ++ b : BitVec 16) = b := by
  ext k hk
  simp only [operandField, BitVec.getElem_extractLsb', BitVec.getLsbD_append]
  rw [if_pos (by omega), Nat.zero_add, ← BitVec.getLsbD_eq_getElem]

/-- A word is its two fields. -/
theorem opField_append_operandField (w : CmdWord) : (opField w ++ operandField w : BitVec 16) = w := by
  apply BitVec.eq_of_getLsbD_eq
  intro k hk
  rw [BitVec.getLsbD_append]
  simp only [opField, operandField, BitVec.getLsbD_extractLsb']
  by_cases h8 : k < 8
  · simp [h8]
  · rw [if_neg h8, show 8 + (k - 8) = k by omega]
    simp [show k - 8 < 8 by omega]

@[simp] theorem fieldsOf_encode (i : Instr) : fieldsOf (encode i) = { op := i.opByte, d := i.operandByte } := by
  simp [fieldsOf, encode]

end Sys2Proof
end

