-- ==== Sys2Proof/Laws/State.lean ====
section
/-!
SUPPORT. Laws/State.lean: one lemma per field per update of State and Inst, all true by rfl, so that no proof unfolds a
record update.
-/
namespace Sys2Proof.Machine

open Sys2Proof

@[simp] theorem State.answer_cfg (s : State) (p : Port) (m : Inst) (r : Response) : (s.answer p m r).cfg = s.cfg := rfl

@[simp] theorem State.answer_sel (s : State) (p : Port) (m : Inst) (r : Response) : (s.answer p m r).sel = s.sel := rfl

@[simp] theorem State.answer_inputs (s : State) (p : Port) (m : Inst) (r : Response) :
    (s.answer p m r).inputs = s.inputs := rfl

@[simp] theorem State.answer_ports (s : State) (p : Port) (m : Inst) (r : Response) :
    (s.answer p m r).ports = s.ports.set s.sel { inst := m, unread := p.unread ++ [r] } := rfl

@[simp] theorem assertReset_cfg (s : State) : (assertReset s).cfg = s.cfg := rfl

@[simp] theorem assertReset_sel (s : State) : (assertReset s).sel = 0 := rfl

@[simp] theorem assertReset_inputs (s : State) : (assertReset s).inputs = s.inputs := rfl

@[simp] theorem assertReset_ports (s : State) :
    (assertReset s).ports = List.replicate s.cfg.nInst Port.reset := rfl

@[simp] theorem State.resetWith_cfg (c : Config) : (State.resetWith c).cfg = c := rfl

@[simp] theorem State.resetWith_sel (c : Config) : (State.resetWith c).sel = 0 := rfl

@[simp] theorem State.resetWith_inputs (c : Config) : (State.resetWith c).inputs = [] := rfl

@[simp] theorem State.resetWith_ports (c : Config) :
    (State.resetWith c).ports = List.replicate c.nInst Port.reset := rfl

@[simp] theorem Inst.reset_crc16 : Inst.reset.crc16 = 0x0000#16 := rfl

@[simp] theorem Inst.reset_crc32 : Inst.reset.crc32 = 0xFFFFFFFF#32 := rfl

@[simp] theorem Inst.reset_buf : Inst.reset.buf = [] := rfl

end Sys2Proof.Machine
end

