-- ==== Sys2Proof/Laws/Ops.lean ====
section
/-!
SUPPORT. Laws/Ops.lean: what the shared operations can do, said once: a command on a channel, the host's read, the
buffer primitives, and that every buffer primitive keeps the buffer's form.
-/
namespace Sys2Proof.Machine

open Sys2Proof

/-- A command on a channel that exists answers. -/
theorem onChannel_of_port {f : Inst → Inst × Response} {s : State} {p : Port} (h : s.ports[s.sel]? = some p) :
    onChannel f s = .next (s.answer p (f p.inst).1 (f p.inst).2) := by
  simp [onChannel, h]

/-- Everything a command on a channel can do when it goes on. -/
theorem onChannel_next {f : Inst → Inst × Response} {s t : State} (h : onChannel f s = .next t) :
    ∃ p, s.ports[s.sel]? = some p ∧ t = s.answer p (f p.inst).1 (f p.inst).2 := by
  unfold onChannel at h
  split at h
  · cases h
  · next p hp => exact ⟨p, hp, (Host.Outcome.next.inj h).symm⟩

/-- A command is never refused. -/
theorem onChannel_ne_refused (f : Inst → Inst × Response) (s : State) (r : Refusal) : onChannel f s ≠ .refused r := by
  unfold onChannel
  split <;> nofun

/-- The answering port after a command. -/
theorem State.answer_port {s : State} {p : Port} (h : s.ports[s.sel]? = some p) (m : Inst) (r : Response) :
    (s.answer p m r).ports[s.sel]? = some { inst := m, unread := p.unread ++ [r] } := by
  have hlt : s.sel < s.ports.length := (List.getElem?_eq_some_iff.mp h).1
  simp [hlt]

/-- The other ports after a command. -/
theorem State.answer_port_ne (s : State) (p : Port) (m : Inst) (r : Response) {ch : Nat} (h : ch ≠ s.sel) :
    (s.answer p m r).ports[ch]? = s.ports[ch]? := by
  simp [List.getElem?_set_ne (Ne.symm h)]

/-- The host's read of a channel that exists. -/
theorem hostRead_of_port {ch : Nat} {s : State} {p : Port} (h : s.ports[ch]? = some p) :
    hostRead ch s = .next { s with ports := s.ports.set ch { p with unread := p.unread.tail } } := by
  simp [hostRead, h]

/-- Everything the host's read can do when it goes on. -/
theorem hostRead_next {ch : Nat} {s t : State} (h : hostRead ch s = .next t) :
    ∃ p, s.ports[ch]? = some p ∧ t = { s with ports := s.ports.set ch { p with unread := p.unread.tail } } := by
  unfold hostRead at h
  split at h
  · cases h
  · next p hp => exact ⟨p, hp, (Host.Outcome.next.inj h).symm⟩

/-! ### The buffer primitives -/

/-- An index that exists reads its byte: the value past the end is never used. -/
theorem byteAt_of_getElem? {buf : Memory} {i : Nat} {b : Byte} (h : buf[i]? = some b) : byteAt buf i = b := by
  simp [byteAt, h]

/-- Below the length, a byte is read exactly when it stands there. -/
theorem byteAt_eq_iff {buf : Memory} {i : Nat} (h : i < buf.length) (b : Byte) :
    byteAt buf i = b ↔ buf[i]? = some b := by
  simp [byteAt, List.getElem?_eq_getElem h]

theorem memRead_length (i n : Nat) (buf : Memory) : (memRead i n buf).length = min n (buf.length - i) := by
  simp [memRead]

/-- Reading a byte after an append: the appended byte at the back, every other as before. -/
theorem bufAppend_getElem? (b : Byte) (buf : Memory) (i : Nat) :
    (bufAppend b buf)[i]? = if i = buf.length then some b else buf[i]? := by
  unfold bufAppend
  rcases lt_trichotomy i buf.length with h | rfl | h
  · rw [if_neg (Nat.ne_of_lt h), List.getElem?_append_left h]
  · simp
  · rw [if_neg (Nat.ne_of_gt h), List.getElem?_eq_none (by simp; omega), List.getElem?_eq_none (by omega)]

/-- Reading a byte after a drop: the byte `k` further on. -/
theorem bufDrop_getElem? (k : Nat) (buf : Memory) (i : Nat) : (bufDrop k buf)[i]? = buf[k + i]? := by
  simp [bufDrop]

theorem bufDrop_bufDrop (j k : Nat) (buf : Memory) : bufDrop k (bufDrop j buf) = bufDrop (j + k) buf := by
  simp [bufDrop]

theorem bufClear_wf (cap : Nat) (buf : Memory) : Memory.wf cap (bufClear buf) := by
  simp [Memory.wf, bufClear]

theorem bufDrop_wf {cap : Nat} {buf : Memory} (k : Nat) (h : Memory.wf cap buf) : Memory.wf cap (bufDrop k buf) := by
  simp only [Memory.wf, bufDrop, List.length_drop] at *
  omega

theorem bufAppend_wf {cap : Nat} {buf : Memory} (b : Byte) (h : buf.length < cap) : Memory.wf cap (bufAppend b buf) := by
  simp only [Memory.wf, bufAppend, List.length_append, List.length_singleton]
  omega

/-- The buffer has its form at reset. -/
theorem Inst.reset_wf (cap : Nat) : Memory.wf cap Inst.reset.buf := by
  simp [Memory.wf]

end Sys2Proof.Machine
end

