-- ==== Sys2Proof/Laws/FrameSync.lean ====
section
/-!
SUPPORT. Laws/FrameSync.lean: the header search by its equations, and everything one FS.PARSE can do.
-/
namespace Sys2Proof.Machine

open Sys2Proof

@[simp] theorem findHeader_nil : findHeader [] = none := rfl

@[simp] theorem findHeader_singleton (a : Byte) : findHeader [a] = none := rfl

theorem findHeader_cons_cons (a b : Byte) (rest : List Byte) :
    findHeader (a :: b :: rest) =
      if a = Config.hdr0 ∧ b = Config.hdr1 then some 0 else (findHeader (b :: rest)).map (· + 1) := rfl

theorem parse_of_none {buf : Memory} (h : findHeader buf = none) : parse buf = ([], .noFrame) := by
  simp [parse, h, bufClear]

theorem parse_of_some {buf : Memory} {n : Nat} (h : findHeader buf = some n) :
    parse buf = parseAtHeader (bufDrop n buf) := by
  simp [parse, h]

/-- Everything steps 3 to 6 can do to a buffer that begins with the header (R133 to R135). -/
theorem parseAtHeader_cases (buf : Memory) :
    (parseAtHeader buf = (buf, .noFrame) ∧
      (buf.length < 4 ∨ buf.length < le16 (byteAt buf 2) (byteAt buf 3) + 8)) ∨
    (4 ≤ buf.length ∧ le16 (byteAt buf 2) (byteAt buf 3) + 8 ≤ buf.length ∧
      byteAt buf (le16 (byteAt buf 2) (byteAt buf 3) + 6) = Config.ftr0 ∧
      byteAt buf (le16 (byteAt buf 2) (byteAt buf 3) + 7) = Config.ftr1 ∧
      parseAtHeader buf =
        (buf.drop (le16 (byteAt buf 2) (byteAt buf 3) + 8),
          .frame ((buf.drop 4).take (le16 (byteAt buf 2) (byteAt buf 3)))
            (buf.take (le16 (byteAt buf 2) (byteAt buf 3) + 8)))) ∨
    (4 ≤ buf.length ∧ le16 (byteAt buf 2) (byteAt buf 3) + 8 ≤ buf.length ∧
      ¬ (byteAt buf (le16 (byteAt buf 2) (byteAt buf 3) + 6) = Config.ftr0 ∧
        byteAt buf (le16 (byteAt buf 2) (byteAt buf 3) + 7) = Config.ftr1) ∧
      parseAtHeader buf = (buf.drop 1, .noFrame)) := by
  unfold parseAtHeader
  split
  · next h => exact .inl ⟨rfl, .inl h⟩
  · next h4 =>
    dsimp only [Config.frameOverhead]
    generalize le16 (byteAt buf 2) (byteAt buf 3) = L
    have e1 : L + 8 - 2 = L + 6 := by omega
    have e2 : L + 8 - 1 = L + 7 := by omega
    rw [e1, e2]
    split
    · next h => exact .inl ⟨rfl, .inr h⟩
    · next hT =>
      split
      · next hf =>
        refine .inr (.inl ⟨by omega, by omega, hf.1, hf.2, ?_⟩)
        have e3 : (List.drop 4 (List.take (L + 8) buf)).take L = (buf.drop 4).take L := by
          rw [List.drop_take, List.take_take]
          congr 1
          omega
        simp only [memRead, bufDrop, List.drop_zero, e3]
      · next hf => exact .inr (.inr ⟨by omega, by omega, hf, rfl⟩)

/-- One FS.PARSE never makes the buffer longer. -/
theorem parse_length_le (buf : Memory) : (parse buf).1.length ≤ buf.length := by
  unfold parse
  split
  · simp [bufClear]
  · next n _ =>
    have hd : (bufDrop n buf).length ≤ buf.length := by simp [bufDrop]
    rcases parseAtHeader_cases (bufDrop n buf) with ⟨h, _⟩ | ⟨_, _, _, _, h⟩ | ⟨_, _, _, h⟩ <;> rw [h] <;>
      first
        | exact hd
        | exact le_trans (by simp) hd

end Sys2Proof.Machine
end

