-- ==== Sys2Proof/Laws/Exec.lean ====
section
/-!
SUPPORT. Laws/Exec.lean: every command as one function of the instance it serves, and every command word as one, so that
a proof about all commands splits on the command once.
-/
namespace Sys2Proof.Machine

open Sys2Proof

/-- What a command does to the instance it serves, with the response it gives. -/
def effect (cap : Nat) : Instr → Inst → Inst × Response
  | .c16Init => c16Init
  | .c16Upd d => c16Upd d
  | .c16Get => c16Get
  | .c32Init => c32Init
  | .c32Upd d => c32Upd d
  | .c32Get => c32Get
  | .fsClr => fsClr
  | .fsPush d => fsPush cap d
  | .fsParse => fsParse
  | .fsLevel => fsLevel

theorem exec_eq_onChannel (i : Instr) (s : State) : exec i s = onChannel (effect s.cfg.bufCap i) s := by
  cases i <;> rfl

/-- Everything a command can do when it goes on. -/
theorem exec_next {i : Instr} {s t : State} (h : exec i s = .next t) :
    ∃ p, s.ports[s.sel]? = some p ∧
      t = s.answer p (effect s.cfg.bufCap i p.inst).1 (effect s.cfg.bufCap i p.inst).2 :=
  onChannel_next (exec_eq_onChannel i s ▸ h)

/-- What a command word does to the instance of its channel, legal or not (R74, R210). -/
def wordEffect (cap : Nat) (w : CmdWord) : Inst → Inst × Response :=
  match decode w with
  | .cmd i => effect cap i
  | .illegal _ => illegalWord

/-- A step without an input. -/
theorem step_nil {s : State} (h : s.inputs = []) : step s = .next s := by
  simp [step, fetch, h]

/-- A step with a command word, legal or not, acts on the channel it came on. -/
theorem step_word {s : State} {ch : Nat} {w : CmdWord} {rest : List HostInput} (h : s.inputs = .command ch w :: rest) :
    step s = onChannel (wordEffect s.cfg.bufCap w) { s with sel := ch, inputs := rest } := by
  unfold step fetch
  rw [h]
  simp only [fetchWord, wordEffect]
  cases decode w with
  | cmd i => exact exec_eq_onChannel i _
  | illegal why => rfl

/-- A step with a host read. -/
theorem step_read {s : State} {ch : Nat} {rest : List HostInput} (h : s.inputs = .readResponse ch :: rest) :
    step s = hostRead ch { s with inputs := rest } := by
  simp [step, fetch, h]

/-- A step with the reset input. -/
theorem step_reset {s : State} {rest : List HostInput} (h : s.inputs = .reset :: rest) :
    step s = .next (assertReset { s with inputs := rest }) := by
  simp [step, fetch, h]

/-- Every command keeps the buffer within its capacity (R33). -/
theorem effect_wf {cap : Nat} (i : Instr) {m : Inst} (h : Memory.wf cap m.buf) : Memory.wf cap (effect cap i m).1.buf := by
  cases i with
  | c16Init | c16Upd | c16Get | c32Init | c32Upd | c32Get | fsLevel => exact h
  | fsClr => exact bufClear_wf cap m.buf
  | fsParse => exact le_trans (parse_length_le m.buf) h
  | fsPush d =>
    simp only [effect, fsPush]
    split
    · next hlt => exact bufAppend_wf d hlt
    · exact h

end Sys2Proof.Machine
end

