-- ==== Sys2Proof/Laws/PerInstr.lean ====
section
/-!
SUPPORT. Laws/PerInstr.lean: for every command, its word satisfies the match and mask of its row (R73), one lemma per
constructor.
-/
namespace Sys2Proof.Laws.MatchesRow

open Sys2Proof

/-- The command's word is selected by the command's row, and by the row's command alone in the opcode field. -/
def Statement (i : Instr) : Prop := i.row.selects (encode i) = true ∧ opField (encode i) = i.opByte

/-- Masking the operand away leaves the opcode (R73's mask `0xFF00`). -/
theorem mask_operand (a b : Byte) : (a ++ b : BitVec 16) &&& 0xFF00#16 = (a ++ 0#8 : BitVec 16) := by
  have h : 0xFF00#16 = (BitVec.allOnes 8 ++ 0#8 : BitVec 16) := rfl
  rw [h, BitVec.and_append, BitVec.and_allOnes, BitVec.and_zero]

theorem c16Init : Statement .c16Init := by unfold Statement; decide

theorem c16Upd (d : Byte) : Statement (.c16Upd d) := by
  refine ⟨?_, opField_append _ _⟩
  simp only [OpcodeRow.selects, Instr.row, encode, Instr.opByte, Instr.operandByte, mask_operand]
  decide

theorem c16Get : Statement .c16Get := by unfold Statement; decide

theorem c32Init : Statement .c32Init := by unfold Statement; decide

theorem c32Upd (d : Byte) : Statement (.c32Upd d) := by
  refine ⟨?_, opField_append _ _⟩
  simp only [OpcodeRow.selects, Instr.row, encode, Instr.opByte, Instr.operandByte, mask_operand]
  decide

theorem c32Get : Statement .c32Get := by unfold Statement; decide

theorem fsClr : Statement .fsClr := by unfold Statement; decide

theorem fsPush (d : Byte) : Statement (.fsPush d) := by
  refine ⟨?_, opField_append _ _⟩
  simp only [OpcodeRow.selects, Instr.row, encode, Instr.opByte, Instr.operandByte, mask_operand]
  decide

theorem fsParse : Statement .fsParse := by unfold Statement; decide

theorem fsLevel : Statement .fsLevel := by unfold Statement; decide

end Sys2Proof.Laws.MatchesRow
end

