-- ==== Sys2Proof/Laws/Run.lean ====
section
/-!
SUPPORT. Laws/Run.lean: a run over command words of one channel, as one fold over the instance of that channel.
-/
namespace Sys2Proof.Machine

open Sys2Proof

/-- What a list of command words does to the instance they serve, with the responses in order. -/
def wordsEffect (cap : Nat) : List CmdWord → Inst → Inst × List Response
  | [], m => (m, [])
  | w :: ws, m =>
    let r := wordEffect cap w m
    ((wordsEffect cap ws r.1).1, r.2 :: (wordsEffect cap ws r.1).2)

/-- Each word gets one response (R70). -/
theorem wordsEffect_length (cap : Nat) (ws : List CmdWord) (m : Inst) :
    (wordsEffect cap ws m).2.length = ws.length := by
  induction ws generalizing m with
  | nil => rfl
  | cons w ws ih => simp [wordsEffect, ih]

/-- A run over words is a run over the first ones and then the others. -/
theorem wordsEffect_append (cap : Nat) (ws vs : List CmdWord) (m : Inst) :
    wordsEffect cap (ws ++ vs) m =
      ((wordsEffect cap vs (wordsEffect cap ws m).1).1,
        (wordsEffect cap ws m).2 ++ (wordsEffect cap vs (wordsEffect cap ws m).1).2) := by
  induction ws generalizing m with
  | nil => rfl
  | cons w ws ih => simp [wordsEffect, ih]

theorem ports_set_self {l : List Port} {k : Nat} {p : Port} (h : l[k]? = some p) : l.set k p = l := by
  apply List.ext_getElem?
  intro j
  rw [List.getElem?_set]
  split
  · next e =>
    subst e
    rw [h, if_pos (List.getElem?_eq_some_iff.mp h).1]
  · rfl

/-- The whole run, from any state whose inputs begin with the words. -/
theorem run_words (ws : List CmdWord) (s : State) (ch : Nat) (p : Port) (rest : List HostInput)
    (hp : s.ports[ch]? = some p) (hi : s.inputs = ws.map (HostInput.command ch) ++ rest) :
    ∃ t, core.run ws.length s = .next t ∧ t.inputs = rest ∧ t.cfg = s.cfg ∧
      t.ports = s.ports.set ch
        { inst := (wordsEffect s.cfg.bufCap ws p.inst).1
          unread := p.unread ++ (wordsEffect s.cfg.bufCap ws p.inst).2 } := by
  induction ws generalizing s p with
  | nil => exact ⟨s, rfl, by simpa using hi, rfl, by simp [wordsEffect, ports_set_self hp]⟩
  | cons w ws ih =>
    let u : State := { s with sel := ch, inputs := ws.map (HostInput.command ch) ++ rest }
    have hs : step s = .next
        (u.answer p (wordEffect s.cfg.bufCap w p.inst).1 (wordEffect s.cfg.bufCap w p.inst).2) := by
      rw [step_word hi]
      exact onChannel_of_port (s := u) hp
    obtain ⟨t, hrun, hin, hcfg, hports⟩ := ih _ _ (State.answer_port (s := u) hp _ _) rfl
    refine ⟨t, ?_, hin, hcfg, ?_⟩
    · simp only [List.length_cons, Host.Core.run, core]
      rw [hs]
      exact hrun
    · rw [hports]
      simp [u, wordsEffect]

end Sys2Proof.Machine
end

