-- ==== Sys2Proof/Tests/Slice0.lean ====
section
/-!
SUPPORT. Tests/Slice0.lean: the model's own tests. Expected values come from the spec: `95_test_vectors.md` (V-...), the
example lines of the rules (R...), or words written out bit by bit from R71 and R73. The witnesses show that the
hypotheses of the statements can be met together.
-/
namespace Sys2Proof.Tests

open Sys2Proof Sys2Proof.Machine

/-! ### The command word: each command's word, bit by bit from R73's pattern column -/

theorem test_decode_c16Init : decode 0b0001000000000000#16 = .cmd .c16Init := by decide
theorem test_decode_c16Upd : decode 0b0001000100110001#16 = .cmd (.c16Upd 0x31) := by decide
theorem test_decode_c16Get : decode 0b0001001000000000#16 = .cmd .c16Get := by decide
theorem test_decode_c32Init : decode 0b0010000000000000#16 = .cmd .c32Init := by decide
theorem test_decode_c32Upd : decode 0b0010000111111111#16 = .cmd (.c32Upd 0xFF) := by decide
theorem test_decode_c32Get : decode 0b0010001000000000#16 = .cmd .c32Get := by decide
theorem test_decode_fsClr : decode 0b0011000000000000#16 = .cmd .fsClr := by decide
theorem test_decode_fsPush : decode 0b0011000110101011#16 = .cmd (.fsPush 0xAB) := by decide
theorem test_decode_fsParse : decode 0b0011001000000000#16 = .cmd .fsParse := by decide
theorem test_decode_fsLevel : decode 0b0011001100000000#16 = .cmd .fsLevel := by decide

/-- V-ENC-2, the words with an unused opcode. -/
theorem test_decode_unknownOp : [0x0000#16, 0x1300#16, 0x2300#16, 0x3400#16, 0x4000#16, 0xFFFF#16].map decode =
    List.replicate 6 (.illegal .unknownOp) := by decide

/-- V-ENC-2, the words of an operand-less command with an operand. -/
theorem test_decode_strayOperand :
    [0x1001#16, 0x10FF#16, 0x1201#16, 0x2001#16, 0x3001#16, 0x3201#16, 0x3301#16].map decode =
    List.replicate 7 (.illegal .strayOperand) := by decide

/-- R71: the operand stands in the low byte, the opcode in the high byte. -/
theorem test_encode_fsPush : encode (.fsPush 0xAB) = 0x31AB#16 := by decide

theorem test_decodeTableWord : decodeTableWord 16 0x1131 = some (.c16Upd 0x31) ∧ decodeTableWord 16 0x1001 = none ∧
    decodeTableWord 32 0x10000 = none := by decide

/-! ### Well-formedness refuses -/

theorem test_wf_refuses_stray_operand : CmdFields.wf { op := 0x10, d := 0x01 } = false := by decide
theorem test_wf_refuses_unknown_op : CmdFields.wf { op := 0x40, d := 0x00 } = false := by decide
theorem test_wf_accepts_operand : CmdFields.wf { op := 0x31, d := 0x00 } = true := by decide
theorem test_wf_refuses_small_capacity : ¬ Config.ok { bufCap := 65542, nInst := 1 } := by decide
theorem test_wf_refuses_no_channel : ¬ Config.ok { bufCap := 65543, nInst := 0 } := by decide
theorem test_wf_refuses_input_on_absent_channel :
    HostInput.wf Config.standard (.command 1 0x1000) = false ∧ HostInput.wf Config.standard (.readResponse 1) = false := by
  decide
theorem test_wf_refuses_overfull_buffer : ¬ Memory.wf 2 [0x00, 0x01, 0x02] := by decide
theorem test_wf_refuses_missing_channel :
    ¬ State.wf { State.reset with cfg := { bufCap := 65543, nInst := 2 } } := by decide
theorem test_wf_refuses_absent_selection : ¬ State.wf { State.reset with sel := 1 } := by decide

/-! ### One command, on the second of two channels -/

/-- Two channels, the second selected and holding `m`. -/
def two (m : Inst) : State :=
  { cfg := { bufCap := 65543, nInst := 2 }, ports := [Port.reset, { inst := m, unread := [.ok] }], sel := 1, inputs := [] }

/-- The same with a buffer that holds at most two bytes. -/
def tiny (m : Inst) : State := { two m with cfg := { bufCap := 2, nInst := 2 } }

/-- An instance whose registers hold `a`, `b` and whose buffer holds `l`. -/
def inst (a : Word16) (b : Word32) (l : List Byte) : Inst := { crc16 := a, crc32 := b, buf := l }

/-- An instance with the buffer `l`, its registers not at their reset values. -/
def holding (l : List Byte) : Inst := inst 0x31C3 0x340BC6D9 l

/-- The instance and the response after one command. -/
def after (i : Instr) (s : State) : Option (Inst × List Response) :=
  match exec i s with
  | .next t => (t.ports[1]?).map (fun p => (p.inst, p.unread.drop 1))
  | .fault _ => none
  | .refused _ => none

/-- R93's example. -/
theorem test_c16Init : after .c16Init (two (inst 0x31C3 7 [1])) = some (inst 0 7 [1], [.ok]) := by decide

/-- R94's example. -/
theorem test_c16Upd : after (.c16Upd 0x31) (two (inst 0 7 [1])) = some (inst 0x2672 7 [1], [.ok]) := by decide +kernel

/-- V-C16-5: without an INIT the old message goes on. -/
theorem test_c16Upd_continues : after (.c16Upd 0x31) (two (inst 0x31C3 7 [])) = some (inst 0xC300 7 [], [.ok]) := by
  decide +kernel

/-- R95's example. -/
theorem test_c16Get : after .c16Get (two (inst 0x31C3 7 [])) = some (inst 0x31C3 7 [], [.val16 0x31C3]) := by decide

/-- R113's example. -/
theorem test_c32Init : after .c32Init (two (inst 5 0x340BC6D9 [1])) = some (inst 5 0xFFFFFFFF [1], [.ok]) := by decide

/-- R114's example. -/
theorem test_c32Upd : after (.c32Upd 0x31) (two (inst 5 0xFFFFFFFF [])) = some (inst 5 0x7C231048 [], [.ok]) := by
  decide +kernel

/-- R114's corner: 0 absorbs a zero byte and stays 0. -/
theorem test_c32Upd_zero : after (.c32Upd 0) (two (inst 5 0 [])) = some (inst 5 0 [], [.ok]) := by decide +kernel

/-- R115's example: the complement goes out, the register stays. -/
theorem test_c32Get :
    after .c32Get (two (inst 5 0x340BC6D9 [])) = some (inst 5 0x340BC6D9 [], [.val32 0xCBF43926]) := by decide

/-- R138's example. -/
theorem test_fsClr : after .fsClr (two (holding [0xAB, 0xCD, 0x08])) = some (holding [], [.ok]) := by decide

/-- R137's example. -/
theorem test_fsPush : after (.fsPush 0xCD) (two (holding [0xAB])) = some (holding [0xAB, 0xCD], [.ok]) := by decide

/-- R137: at capacity the byte is refused. -/
theorem test_fsPush_full : after (.fsPush 0xCD) (tiny (holding [0xAB, 0x01])) = some (holding [0xAB, 0x01], [.full]) := by
  decide

/-- R139's example. -/
theorem test_fsLevel :
    after .fsLevel (two (holding [0xAB, 0xCD, 0x08])) = some (holding [0xAB, 0xCD, 0x08], [.level 3]) := by decide

/-- V-FS-1: noise, the query frame, two bytes after it. -/
theorem test_fsParse :
    after .fsParse (two (holding ([0x11, 0x22, 0x33] ++
        [0xAB, 0xCD, 0x08, 0x00, 0x14, 0x05, 0x04, 0x00, 0xFF, 0xFF, 0xFF, 0xFF, 0x10, 0xD4, 0xDC, 0xBA] ++ [0x7F, 0x80]))) =
      some (holding [0x7F, 0x80], [.frame [0x14, 0x05, 0x04, 0x00, 0xFF, 0xFF, 0xFF, 0xFF]
        [0xAB, 0xCD, 0x08, 0x00, 0x14, 0x05, 0x04, 0x00, 0xFF, 0xFF, 0xFF, 0xFF, 0x10, 0xD4, 0xDC, 0xBA]]) := by
  decide

/-- V-FS-2, V-FS-6, V-FS-8, V-FS-12, V-FS-13, V-FS-14: nothing, a lone AB, a header, no length yet, a bad footer (short
form), a wait for a false header, sentinels in the payload, the first header wins, no wrap of `T`. -/
theorem test_parse_corners :
    [[], [0xAB], [0xAB, 0xCD], [0x11, 0x22, 0xAB, 0xCD, 0x08], [0xAB, 0xCD, 0x00, 0x00, 0x00, 0x00, 0xDC, 0xBB],
      [0xAB, 0xCD, 0x10, 0x00, 0xAB, 0xCD, 0x00, 0x00, 0x00, 0x00, 0xDC, 0xBA],
      [0xAB, 0xCD, 0x04, 0x00, 0xAB, 0xCD, 0xDC, 0xBA, 0x14, 0xC6, 0xDC, 0xBA],
      [0xAB, 0xCD, 0x02, 0x00, 0xAB, 0xCD, 0x00, 0x00, 0xDC, 0xBA],
      [0xAB, 0xCD, 0xFF, 0xFF, 0x00, 0x00, 0xDC, 0xBA]].map parse =
    [([], .noFrame), ([], .noFrame), ([0xAB, 0xCD], .noFrame), ([0xAB, 0xCD, 0x08], .noFrame),
      ([0xCD, 0x00, 0x00, 0x00, 0x00, 0xDC, 0xBB], .noFrame),
      ([0xAB, 0xCD, 0x10, 0x00, 0xAB, 0xCD, 0x00, 0x00, 0x00, 0x00, 0xDC, 0xBA], .noFrame),
      ([], .frame [0xAB, 0xCD, 0xDC, 0xBA] [0xAB, 0xCD, 0x04, 0x00, 0xAB, 0xCD, 0xDC, 0xBA, 0x14, 0xC6, 0xDC, 0xBA]),
      ([], .frame [0xAB, 0xCD] [0xAB, 0xCD, 0x02, 0x00, 0xAB, 0xCD, 0x00, 0x00, 0xDC, 0xBA]),
      ([0xAB, 0xCD, 0xFF, 0xFF, 0x00, 0x00, 0xDC, 0xBA], .noFrame)] := by decide

/-! ### Steps -/

/-- R77, R79: the codes of the responses. -/
theorem test_status_codes : Response.full.status.code = 0x06 ∧ (Response.frame [] []).status.code = 0x05 := by decide

/-- R32, R94: from reset, the very next step runs the placed word. -/
theorem test_step_from_reset : step (State.reset.withFetchWord 16 0x31AB) =
    .next { cfg := { bufCap := 65543, nInst := 1 }, sel := 0, inputs := [],
            ports := [{ inst := { crc16 := 0, crc32 := 0xFFFFFFFF, buf := [0xAB] }, unread := [.ok] }] } := rfl

/-- R74: an illegal word's step. -/
theorem test_step_illegal : step (State.reset.withFetchWord 16 0x10FF) =
    .next { State.reset with ports := [{ inst := Inst.reset, unread := [.illegal] }] } := rfl

/-- R220: reset between commands; what the host does after it stays. -/
theorem test_step_reset : step { two (holding [0xAB]) with inputs := [.reset, .command 0 0x1200] } =
    .next { two (holding []) with ports := [Port.reset, Port.reset], sel := 0, inputs := [.command 0 0x1200] } := rfl

/-- R207: a channel the block does not have. -/
theorem test_exec_absent_channel : exec .fsClr { State.reset with sel := 1 } = .fault .noSuchChannel := rfl

/-! ### Text and context -/

/-- R80, R81. -/
theorem test_assembly : asmText (.c16Upd 0x3A) = ['C', '1', '6', '.', 'U', 'P', 'D', ' ', '0', 'x', '3', 'A'] ∧
    readLine [';', ' ', 'x'] = .blank ∧ readLine ['F', 'S', '.', 'P', 'U', 'S', 'H'] = .bad ∧
    c16Msg [0x31] = [.c16Init, .c16Upd 0x31, .c16Get] := by decide

/-- R60, R62: the empty payload's frame has eight bytes. -/
theorem test_wireFrame : wireFrame [] (0x00, 0x00) = [0xAB, 0xCD, 0x00, 0x00, 0x00, 0x00, 0xDC, 0xBA] := by decide

/-- V-CTX-1, V-CTX-2. -/
theorem test_packetize : packetize queryPayload false =
      some [0xAB, 0xCD, 0x08, 0x00, 0x14, 0x05, 0x04, 0x00, 0xFF, 0xFF, 0xFF, 0xFF, 0x10, 0xD4, 0xDC, 0xBA] ∧
    packetize queryPayload true =
      some [0xAB, 0xCD, 0x08, 0x00, 0x02, 0x69, 0x10, 0xE6, 0xD1, 0x6E, 0xF2, 0xBF, 0x31, 0xE1, 0xDC, 0xBA] := by
  decide +kernel

/-- V-CTX-3's payload. -/
def replyPayload : List Byte :=
  [0x15, 0x05, 0x10, 0x00, 0x4B, 0x35, 0x2D, 0x31, 0x2E, 0x30, 0, 0, 0, 0, 0, 0, 0, 0, 0, 0]

/-- V-CTX-3, V-SRC-15: the obfuscated reply, and the version of a session that reads it in its first attempt. -/
theorem test_handshake : packetize replyPayload true =
      some [0xAB, 0xCD, 0x14, 0x00, 0x03, 0x69, 0x04, 0xE6, 0x65, 0xA4, 0x20, 0x71, 0x0F, 0x05, 0xD5, 0x40, 0x13, 0x03, 0xE9,
        0x80, 0x16, 0x6C, 0x14, 0xE6, 0x63, 0xE1, 0xDC, 0xBA] ∧
    ([HandshakeEvent.goOn, .read ((packetize replyPayload true).getD []), .goOn].foldl Handshake.next
      (Handshake.start false false 65543)).phase = .done [0x4B, 0x35, 0x2D, 0x31, 0x2E, 0x30] := by decide +kernel

/-- V-CTX-4, V-CTX-5. -/
theorem test_boot_wire_forms :
    bootHeader 4096 256 = [0x55, 0x50, 0x44, 0x32, 0x00, 0x10, 0x00, 0x00, 0x00, 0x01] ∧
    chunkPacket 0 [0x31, 0x32, 0x33, 0x34, 0x35, 0x36, 0x37, 0x38, 0x39] =
      [0x00, 0x00, 0x00, 0x00, 0x09, 0x00, 0x31, 0x32, 0x33, 0x34, 0x35, 0x36, 0x37, 0x38, 0x39, 0x26, 0x39, 0xF4, 0xCB] := by
  decide +kernel

/-- Bounds for the tests; the source values none (N9). -/
def limits : TransferLimits := { maxChunk := 256, minFw := 16, maxFw := 4096 }

/-- V-SRC-14 (R178): the four rejected sizes, and the least accepted one. -/
theorem test_transfer_validation :
    ([(16, 0), (16, 257), (15, 10), (4097, 10), (16, 1)].map fun c => decide (limits.admits c.1 c.2)) =
      [false, false, false, false, true] ∧
    (Transfer.start limits (List.replicate 15 0) 10 []).phase = .aborted .validationError := by decide

/-- V-SRC-12, R177, R180: the ready wait times out and is logged, `START` comes in two reads, 16 bytes go in chunks of 10,
the second after an `'E'` with status 1, then `ok`. -/
theorem test_transfer :
    let t := [TransferEvent.deadline, .goOn, .goOn, .read [0x73, 0x74, 0x61], .read [0x72, 0x74, 0x0A], .read [0x41],
        .read [0x45, 0x01], .read [0x41], .read [0x6F, 0x6B, 0x0A]].foldl Transfer.next
      (Transfer.start limits (List.replicate 16 0) 10 [])
    t.phase = .done .success ∧ t.offset = 16 ∧ t.seq = 2 ∧ t.written.map List.length = [0, 10, 20, 16, 16] ∧
      t.log = [.timeout .awaitReady, .deviceNak (some 0x01)] := by decide +kernel

/-- R171, R179: building the query leaves `D410` in `crc16`; the chunk of V-CTX-5 comes from the block. -/
theorem test_driven_checksums :
    (Handshake.start false false 65543).send.inst.crc16 = 0xD410 ∧
    (driveChunk 0 [0x31, 0x32, 0x33, 0x34, 0x35, 0x36, 0x37, 0x38, 0x39] Inst.reset).2 =
      some [0x00, 0x00, 0x00, 0x00, 0x09, 0x00, 0x31, 0x32, 0x33, 0x34, 0x35, 0x36, 0x37, 0x38, 0x39, 0x26, 0x39, 0xF4, 0xCB] := by
  decide +kernel

/-- R164, R165 (log 10): a payload whose obfuscated body begins `15 05` does not come back. -/
theorem test_decode_takes_the_other_reading :
    decodeBody (obfuscate (plainBody [0x03, 0x69])) = ([0x15, 0x05], .unmodified) := by decide +kernel

/-! ### Witnesses: the hypotheses of each statement, met together -/

/-- Two channels with the inputs `es`. -/
def asked (m : Inst) (es : List HostInput) : State := { two m with inputs := es }

theorem witness_DecodeAndEncodeAgree : decode 0x31FF = .cmd (.fsPush 0xFF) ∧ decode 0x3300 = .cmd .fsLevel := by decide

theorem witness_OpcodeRowsSelectExactlyTheCommands :
    decode 0x11FF = .cmd (.c16Upd 0xFF) ∧ ∃ r ∈ opcodeRows, r.selects 0x3300 = true := by decide

theorem witness_IllegalWordChangesNothingAndRespondsIllegal :
    let s := asked (holding [1]) [.command 1 0x1001]
    s.inputs = .command 1 0x1001 :: [] ∧ s.ports[1]? = some { inst := holding [1], unread := [.ok] } ∧
      ∀ r ∈ opcodeRows, r.selects 0x1001 = false := by decide

theorem witness_StepRunsTheDecodedCommand :
    (asked (holding [1]) [.command 1 0x1131]).inputs = .command 1 0x1131 :: [] ∧ decode 0x1131 = .cmd (.c16Upd 0x31) := by
  decide

theorem witness_EveryWordGetsExactlyOneResponse :
    let s := asked (holding [1]) [.command 0 0xFFFF]
    s.inputs = .command 0 0xFFFF :: [] ∧ s.ports[0]? = some Port.reset := by decide

/-- The serving port of `two m`: the one hypothesis of C16InitSetsTheInitialValue, C16UpdAbsorbsOneByte,
C16GetReturnsTheRegister, C32InitSetsTheInitialValue, C32UpdAbsorbsOneByte, C32GetReturnsTheComplement,
FsClrEmptiesTheBuffer, FsLevelReportsTheLength and EveryParseDoesOneOfFourThings. -/
theorem witness_serves : (two (holding [1])).serves { inst := holding [1], unread := [.ok] } := by decide

/-- Both paths of FS.PARSE occur. -/
theorem witness_FrameReady : FrameReady [0x00, 0xAB, 0xCD, 0x00, 0x00, 0x00, 0x00, 0xDC, 0xBA] ∧ ¬ FrameReady [0x00] :=
  ⟨⟨1, 0x00, 0x00, by decide⟩, fun ⟨_, _, _, hh, _⟩ => by simpa using hh.1.2⟩

theorem witness_ResponseStatusesFollowTheTable :
    (tiny (holding [1, 2])).serves { inst := holding [1, 2], unread := [.ok] } ∧
      Memory.wf (tiny (holding [1, 2])).cfg.bufCap (holding [1, 2]).buf := by decide

theorem witness_ResetInputResetsEveryInstance :
    (asked (holding [1]) [.reset]).inputs = .reset :: [] ∧
      step (asked (holding [1]) [.readResponse 1]) =
        .next { two (holding [1]) with ports := [Port.reset, { inst := holding [1], unread := [] }] } ∧
      step (two (holding [1])) = .next (two (holding [1])) := ⟨rfl, rfl, rfl⟩

theorem witness_ResetLeavesTheInitialValues :
    (two Inst.reset).serves { inst := Inst.reset, unread := [.ok] } := by decide

theorem witness_InitCommandsRestoreTheResetInstance :
    [Instr.c32Init, .fsClr, .c16Init].Perm [.fsClr, .c16Init, .c32Init] ∧
      (two (holding [1])).ports[1]? = some { inst := holding [1], unread := [.ok] } := by decide

theorem witness_HostReadTakesTheOldestResponse :
    let s := asked (holding [1]) [.readResponse 1]
    s.inputs = .readResponse 1 :: [] ∧ s.ports[1]? = some { inst := holding [1], unread := .ok :: [] } := by decide

theorem witness_StepKeepsTheStateWellFormed :
    (asked (holding [1]) [.command 1 0x1001, .reset]).wf ∧
      step (asked (holding [1]) [.command 1 0x1001, .reset]) =
        .next { asked (holding [1]) [.reset] with
          ports := [Port.reset, { inst := holding [1], unread := [.ok, .illegal] }] } := ⟨by decide, rfl⟩

theorem witness_ResetStateIsWellFormed : Config.ok { bufCap := 65543, nInst := 1 } := by decide

theorem witness_WellFormedStateAlwaysSteps : (asked (holding [1]) [.command 1 0x3200]).wf := by decide

theorem witness_C16CommandsFrame :
    Instr.unit (.c16Upd 0) = .c16 ∧ (two (inst 0 7 [1])).serves { inst := inst 0 7 [1], unread := [.ok] } ∧
      exec (.c16Upd 0) (two (inst 0 7 [1])) =
        .next { two (inst 0 7 [1]) with ports := [Port.reset, { inst := inst 0 7 [1], unread := [.ok, .ok] }] } ∧
      exec .c16Get (two (inst 0 7 [1])) =
        .next { two (inst 0 7 [1]) with ports := [Port.reset, { inst := inst 0 7 [1], unread := [.ok, .val16 0] }] } :=
  ⟨rfl, by decide, rfl, rfl⟩

theorem witness_C32CommandsFrame :
    Instr.unit .c32Init = .c32 ∧ (two (inst 0 7 [1])).serves { inst := inst 0 7 [1], unread := [.ok] } ∧
      exec .c32Init (two (inst 0 7 [1])) =
        .next { two (inst 0 7 [1]) with
          ports := [Port.reset, { inst := inst 0 0xFFFFFFFF [1], unread := [.ok, .ok] }] } ∧
      exec .c32Get (two (inst 0 7 [1])) =
        .next { two (inst 0 7 [1]) with
          ports := [Port.reset, { inst := inst 0 7 [1], unread := [.ok, .val32 0xFFFFFFF8] }] } :=
  ⟨rfl, by decide, rfl, rfl⟩

theorem witness_C16CommandsComputeTheChecksum :
    (∀ i ∈ [Instr.c16Upd 0x31, .fsPush 1, .c16Get], i ≠ .c16Init) ∧ (two Inst.reset).ports[1]? =
      some { inst := Inst.reset, unread := [.ok] } := by decide

theorem witness_C32CommandsComputeTheChecksum :
    (∀ i ∈ [Instr.c32Upd 0x31, .c16Init, .c32Get], i ≠ .c32Init) ∧ (two Inst.reset).ports[1]? =
      some { inst := Inst.reset, unread := [.ok] } := by decide

/-- SingleBitFlipChangesCrc16 and SingleBitFlipChangesCrc32: the first bit of the first byte and the last of the last. -/
theorem witness_SingleBitFlip :
    (0 < queryPayload.length ∧ 0 < 8) ∧ (7 < queryPayload.length ∧ 7 < 8) ∧ flipBit queryPayload 7 0 ≠ queryPayload := by
  decide

theorem witness_Crc16ZeroInitialValueConsequences : ([0x12, 0x34] : List Byte).length = ([0x00, 0xFF] : List Byte).length := by
  decide

theorem witness_FindHeaderIsTheLeastIndex :
    findHeader [0x11, 0xAB, 0xCD] = some 1 ∧ findHeader [0xAB] = none ∧ ([0xAB] : List Byte).length < 2 := by decide

theorem witness_ParseHuntDiscardsTheNoise :
    (two (holding [0x11, 0xAB])).serves { inst := holding [0x11, 0xAB], unread := [.ok] } ∧ NoHeader [0x11, 0xAB] ∧
      (two (holding [0x11, 0xAB, 0xCD])).serves { inst := holding [0x11, 0xAB, 0xCD], unread := [.ok] } ∧
      FirstHeader [0x11, 0xAB, 0xCD] 1 := by decide

/-- Two and three bytes from the header on. -/
theorem witness_ParseWaitsForTheLengthField :
    (two (holding [0xAB, 0xCD])).serves { inst := holding [0xAB, 0xCD], unread := [.ok] } ∧
      (FirstHeader [0xAB, 0xCD] 0 ∧ ([0xAB, 0xCD] : List Byte).length < 0 + 4) ∧
      FirstHeader [0x11, 0xAB, 0xCD, 0x08] 1 ∧ ([0x11, 0xAB, 0xCD, 0x08] : List Byte).length < 1 + 4 := by decide

/-- One byte short, and the largest length. -/
theorem witness_ParseWaitsForTheWholeFrame :
    let short : List Byte := [0xAB, 0xCD, 0x00, 0x00, 0x00, 0x00, 0xDC]
    let huge : List Byte := [0xAB, 0xCD, 0xFF, 0xFF, 0x00, 0x00, 0xDC, 0xBA]
    (two (holding short)).serves { inst := holding short, unread := [.ok] } ∧ FirstHeader short 0 ∧
      short[2]? = some 0x00 ∧ short[3]? = some 0x00 ∧ short.length < 0 + ((0x00#8).toNat + 256 * (0x00#8).toNat + 8) ∧
      FirstHeader huge 0 ∧ huge[2]? = some 0xFF ∧ huge[3]? = some 0xFF ∧
      huge.length < 0 + ((0xFF#8).toNat + 256 * (0xFF#8).toNat + 8) := by decide

/-- Exactly `T` bytes, with the footer and without. -/
theorem witness_ParseChecksTheFooterOnly :
    let good : List Byte := [0xAB, 0xCD, 0x00, 0x00, 0x00, 0x00, 0xDC, 0xBA]
    let bad : List Byte := [0xAB, 0xCD, 0x00, 0x00, 0x00, 0x00, 0xDC, 0xBB]
    (two (holding good)).serves { inst := holding good, unread := [.ok] } ∧ FirstHeader good 0 ∧
      good[2]? = some 0x00 ∧ good[3]? = some 0x00 ∧ 0 + (0 + 8) ≤ good.length ∧ FooterAt good (0 + 0 + 6) ∧
      (two (holding bad)).serves { inst := holding bad, unread := [.ok] } ∧ FirstHeader bad 0 ∧
      bad[2]? = some 0x00 ∧ bad[3]? = some 0x00 ∧ 0 + (0 + 8) ≤ bad.length ∧ ¬ FooterAt bad (0 + 0 + 6) := by decide

theorem witness_FsCommandsFrame :
    [Instr.fsLevel, .fsPush 5, .fsParse, .fsClr].map Instr.unit = [.fs, .fs, .fs, .fs] ∧
      (two (holding [1])).serves { inst := holding [1], unread := [.ok] } ∧
      [Instr.fsLevel, .fsPush 5, .fsParse, .fsClr].map (fun i => after i (two (holding [1]))) =
        [some (holding [1], [.level 1]), some (holding [1, 5], [.ok]), some (holding [], [.noFrame]),
          some (holding [], [.ok])] := by decide

/-- One byte of room, and none. -/
theorem witness_FsPushAppendsOrRefuses :
    ((tiny (holding [1])).serves { inst := holding [1], unread := [.ok] } ∧
      (holding [1]).buf.length < (tiny (holding [1])).cfg.bufCap) ∧
    (tiny (holding [1, 2])).serves { inst := holding [1, 2], unread := [.ok] } ∧
      (tiny (holding [1, 2])).cfg.bufCap ≤ (holding [1, 2]).buf.length := by decide

/-- With the footer and without. -/
theorem witness_ParseNeverLooksAtTheBody :
    let buf (f1 : Byte) : List Byte :=
      [0xAB] ++ ([0xAB, 0xCD, 0x01, 0x00] ++ [0xDC] ++ [0x00, 0x00, 0xDC, f1]) ++ [0x7F]
    FirstHeader ([0xAB] ++ [0xAB, 0xCD]) ([0xAB] : List Byte).length ∧
      ([0xDC] : List Byte).length = (0x01#8).toNat + 256 * (0x00#8).toNat ∧
      (two (holding (buf 0xBA))).serves { inst := holding (buf 0xBA), unread := [.ok] } ∧
      (two (holding (buf 0xBB))).serves { inst := holding (buf 0xBB), unread := [.ok] } := by decide

theorem witness_FullBufferIsAlwaysRelieved :
    let m := holding (List.replicate 65543 0xAB)
    (two m).cfg.ok ∧ (two m).serves { inst := m, unread := [.ok] } ∧ m.buf.length = (two m).cfg.bufCap :=
  ⟨by unfold two; decide, rfl, List.length_replicate⟩

/-- The port on the channel of a run: the one hypothesis of EmittedFramesAreRunsOfThePushedBytes and
RepeatedParsingComesToRest. -/
theorem witness_run : (two (holding [0xAB])).ports[1]? = some { inst := holding [0xAB], unread := [.ok] } := by decide

theorem witness_ParsingAfterEveryPushNeverYieldsAFrame :
    (two (holding [])).ports[1]? = some { inst := holding [], unread := [.ok] } ∧ (holding []).buf = [] ∧
      0 < (two (holding [])).cfg.bufCap := by decide

/-- Two machines that differ in everything but the instance on channel 1 and `BUF_CAP`. -/
theorem witness_CommandTouchesItsOwnInstanceOnly :
    let s := asked (holding [1]) [.command 1 0x3200, .reset]
    let s' := { s with ports := s.ports.set 0 { inst := holding [7], unread := [] }, inputs := [.command 1 0x3200] }
    s.inputs = .command 1 0x3200 :: [.reset] ∧ s'.inputs = .command 1 0x3200 :: [] ∧
      s.ports[1]? = some { inst := holding [1], unread := [.ok] } ∧
      s'.ports[1]? = some { inst := holding [1], unread := [.ok] } ∧ s.cfg.bufCap = s'.cfg.bufCap := by decide

theorem witness_UnitsShareNoState :
    (two (inst 1 2 [3])).serves { inst := inst 1 2 [3], unread := [.ok] } ∧
      (two (inst 4 2 [5])).serves { inst := inst 4 2 [5], unread := [.ok] } ∧
      SameFor (Instr.unit .c32Get) (inst 1 2 [3]) (inst 4 2 [5]) ∧
      (two (inst 1 2 [3])).cfg.bufCap = (two (inst 4 2 [5])).cfg.bufCap ∧ Instr.unit .c32Get ≠ Instr.unit (.fsPush 1) :=
  ⟨rfl, rfl, rfl, rfl, by decide⟩

theorem witness_InstancesShareNoState :
    let s := asked (holding [1]) [.command 0 0x1131, .command 1 0x3200]
    0 ≠ 1 ∧ 0 < s.ports.length ∧ 1 < s.ports.length ∧ s.inputs = .command 0 0x1131 :: .command 1 0x3200 :: [] := by decide

/-- The refused words: illegal, and pushed into a full buffer. -/
theorem witness_RefusedCommandChangesNothing :
    step (asked (holding [1]) [.command 1 0x4000]) =
        .next { two (holding [1]) with ports := [Port.reset, { inst := holding [1], unread := [.ok] ++ [.illegal] }] } ∧
      step { tiny (holding [1, 2]) with inputs := [.command 1 0x3105] } =
        .next { tiny (holding [1, 2]) with
          ports := [Port.reset, { inst := holding [1, 2], unread := [.ok] ++ [.full] }] } := ⟨rfl, rfl⟩

theorem witness_PacketizedPayloadIsDelivered :
    packetize [] false = some [0xAB, 0xCD, 0x00, 0x00, 0x00, 0x00, 0xDC, 0xBA] ∧ (two (holding [])).cfg.ok ∧
      (two (holding [])).ports[1]? = some { inst := holding [], unread := [.ok] } ∧ (holding []).buf = [] := by decide

theorem witness_ObfuscationIsItsOwnInverse : queryPayload[7]? = some 0xFF := by decide

/-- The shortest payload, and the query. -/
theorem witness_DecodeUndoesAnObfuscatedBody :
    (obfuscate (plainBody [])).take 2 ≠ replyId ∧ (obfuscate (plainBody queryPayload)).take 2 ≠ replyId := by decide +kernel

/-- Each of the rejected sizes at its boundary. -/
theorem witness_TransferValidationRejectsWithoutWriting :
    limits.maxChunk < 257 ∧ (List.replicate 15 (0x00#8)).length = 15 ∧ (List.replicate 15 (0x00#8)).length < limits.minFw ∧
      limits.maxFw < (List.replicate 4097 (0x00#8)).length := ⟨by decide, rfl, by decide, by
  rw [List.length_replicate]; decide⟩

/-- A session that waits on its first chunk, and a failure of each kind. -/
theorem witness_FiveFailuresAbortTheTransfer :
    let t := [TransferEvent.deadline, .goOn, .goOn, .deadline].foldl Transfer.next
      (Transfer.start limits (List.replicate 16 0) 10 [])
    let fs := [TransferEvent.deadline, .read [0x00], .read [0x45, 0x41], .deadline, .read [0x42]]
    t.phase = .transfer ∧ t.retries = 0 ∧ t.statusDue = false ∧ t.unread = [] ∧ fs.length ≤ 5 ∧
      ∀ f ∈ fs, f.failsChunk = true := by decide +kernel

end Sys2Proof.Tests
end

section
/-!
SUPPORT. The scope family (`00_scope.md`): what a step does with a word on a channel.
-/
namespace Sys2Proof.Machine

open Sys2Proof

/-- A word that decodes to a command does what the command does (R50). -/
theorem wordEffect_of_decode_cmd {w : CmdWord} {i : Instr} (cap : Nat) (h : decode w = .cmd i) :
    wordEffect cap w = effect cap i := by
  simp only [wordEffect, h]

/-- Settles O5: on the channel's instance a legal word acts as its command, and so does `exec` of the command. -/
theorem stepRunsTheDecodedCommand : Obligations.StepRunsTheDecodedCommand := by
  intro s ch w i rest hin hdec
  calc step s
      = onChannel (wordEffect s.cfg.bufCap w) { s with sel := ch, inputs := rest } := step_word hin
    _ = onChannel (effect s.cfg.bufCap i) { s with sel := ch, inputs := rest } := by
        rw [wordEffect_of_decode_cmd _ hdec]
    _ = exec i { s with sel := ch, inputs := rest } := (exec_eq_onChannel i _).symm

end Sys2Proof.Machine
end

section
/-!
SUPPORT. The state family (`10_state.md`): which states are well-formed and what keeps them so, what a command leaves as
it was in the instance it serves, and what a command does on its channel.
-/
namespace Sys2Proof.Machine

open Sys2Proof

/-! ### Well-formed states -/

/-- The port on a channel of a well-formed state has its buffer within the capacity. -/
theorem State.wf_port {s : State} {ch : Nat} {p : Port} (hs : s.wf) (hp : s.ports[ch]? = some p) :
    Memory.wf s.cfg.bufCap p.inst.buf := by
  obtain ⟨-, -, hbuf, -, -⟩ := hs
  exact hbuf p (List.mem_of_getElem? hp)

/-- The selected channel of a well-formed state is one the block has. -/
theorem State.wf_sel {s : State} (hs : s.wf) : s.sel < s.cfg.nInst := by
  obtain ⟨-, -, -, hsel, -⟩ := hs
  exact hsel

/-- Replacing one port keeps a state well-formed if the new buffer is within the capacity. -/
theorem State.wf_setPort {s : State} (ch : Nat) {q : Port} (hs : s.wf) (hq : Memory.wf s.cfg.bufCap q.inst.buf) :
    State.wf { s with ports := s.ports.set ch q } := by
  obtain ⟨hcfg, hlen, hbuf, hsel, hin⟩ := hs
  refine ⟨hcfg, (List.length_set ..).trans hlen, fun r hr => ?_, hsel, hin⟩
  rcases List.mem_or_eq_of_mem_set hr with hold | rfl
  · exact hbuf r hold
  · exact hq

/-- The next input names a channel of the block. -/
theorem State.wf_head {s : State} {e : HostInput} {rest : List HostInput} (hs : s.wf) (hin : s.inputs = e :: rest) :
    e.wf s.cfg = true := by
  obtain ⟨-, -, -, -, hwf⟩ := hs
  exact hwf e (hin ▸ List.mem_cons_self)

/-- Taking the next input and selecting a channel of the block keeps a state well-formed. -/
theorem State.wf_take {s : State} {e : HostInput} {rest : List HostInput} {ch : Nat} (hs : s.wf)
    (hin : s.inputs = e :: rest) (hch : ch < s.cfg.nInst) : State.wf { s with sel := ch, inputs := rest } := by
  obtain ⟨hcfg, hlen, hbuf, -, hwf⟩ := hs
  exact ⟨hcfg, hlen, hbuf, hch, fun e' he' => hwf e' (hin ▸ List.mem_cons_of_mem e he')⟩

/-- After reset every instance is at `Inst.reset`, whose buffer is empty, and channel 0 exists (R8, R32). -/
theorem State.resetWith_wf {c : Config} (hc : c.ok) : (State.resetWith c).wf := by
  obtain ⟨hcap, hn⟩ := hc
  refine ⟨⟨hcap, hn⟩, List.length_replicate, fun p hp => ?_, hn, nofun⟩
  rw [State.resetWith_ports] at hp
  rw [List.eq_of_mem_replicate hp]
  exact Inst.reset_wf c.bufCap

/-- Settles O15, by `State.resetWith_wf`. -/
theorem resetStateIsWellFormed : Obligations.ResetStateIsWellFormed :=
  fun _ => State.resetWith_wf

/-- The reset input is a fresh start with the same parameters and the same inputs to come (R220). -/
theorem assertReset_eq (s : State) : assertReset s = { State.resetWith s.cfg with inputs := s.inputs } := rfl

theorem assertReset_wf {s : State} (hs : s.wf) : (assertReset s).wf := by
  obtain ⟨hcfg, -, -, -, hin⟩ := hs
  obtain ⟨-, hlen, hbuf, hsel, -⟩ := State.resetWith_wf hcfg
  rw [assertReset_eq]
  exact ⟨hcfg, hlen, hbuf, hsel, hin⟩

/-- The host's read touches no buffer. -/
theorem hostRead_wf {s t : State} {ch : Nat} (hs : s.wf) (h : hostRead ch s = .next t) : t.wf := by
  obtain ⟨p, hp, rfl⟩ := hostRead_next h
  have hbuf : Memory.wf s.cfg.bufCap p.inst.buf := State.wf_port hs hp
  exact State.wf_setPort ch hs hbuf

/-- A word that decodes to no command acts as an illegal word (R74). -/
theorem wordEffect_of_decode_illegal {w : CmdWord} {why : Illegal} (cap : Nat) (h : decode w = .illegal why) :
    wordEffect cap w = illegalWord := by
  simp only [wordEffect, h]

/-- Every command word, legal or not, keeps the buffer within its capacity (R33). -/
theorem wordEffect_wf {cap : Nat} (w : CmdWord) {m : Inst} (h : Memory.wf cap m.buf) :
    Memory.wf cap (wordEffect cap w m).1.buf := by
  cases hdec : decode w with
  | cmd i =>
    rw [wordEffect_of_decode_cmd cap hdec]
    exact effect_wf i h
  | illegal why =>
    rw [wordEffect_of_decode_illegal cap hdec]
    exact h

/-- Something that keeps the buffer within the capacity keeps the machine well-formed when done on a channel. -/
theorem onChannel_wf {f : Inst → Inst × Response} {s t : State}
    (hf : ∀ m : Inst, Memory.wf s.cfg.bufCap m.buf → Memory.wf s.cfg.bufCap (f m).1.buf)
    (hs : s.wf) (h : onChannel f s = .next t) : t.wf := by
  obtain ⟨p, hp, rfl⟩ := onChannel_next h
  exact State.wf_setPort s.sel hs (hf p.inst (State.wf_port hs hp))

/-- Settles O14, by cases on the next input: none, a command word, a host read, the reset input. -/
theorem stepKeepsTheStateWellFormed : Obligations.StepKeepsTheStateWellFormed := by
  intro s t hs h
  cases hin : s.inputs with
  | nil =>
    rw [step_nil hin] at h
    cases h
    exact hs
  | cons e rest =>
    cases e with
    | command ch w =>
      rw [step_word hin] at h
      have hch : ch < s.cfg.nInst := of_decide_eq_true (State.wf_head hs hin)
      exact onChannel_wf (fun _ => wordEffect_wf w) (State.wf_take hs hin hch) h
    | readResponse ch =>
      rw [step_read hin] at h
      exact hostRead_wf (State.wf_take hs hin (State.wf_sel hs)) h
    | reset =>
      rw [step_reset hin] at h
      cases h
      exact assertReset_wf (State.wf_take hs hin (State.wf_sel hs))

/-! ### What a command leaves as it was -/

/-- A command on a channel that exists answers with its effect on the instance there. -/
theorem exec_of_port {s : State} {p : Port} (i : Instr) (hp : s.serves p) :
    exec i s = s.answered p (effect s.cfg.bufCap i p.inst).1 (effect s.cfg.bufCap i p.inst).2 :=
  (exec_eq_onChannel i s).trans (onChannel_of_port hp)

/-- What every command leaves as it was outside the instance it serves, and what it does there. -/
theorem exec_frame {i : Instr} {s t : State} {p : Port} (hp : s.serves p) (h : exec i s = .next t) :
    OthersUntouched s t ∧
      ∃ q, t.serves q ∧ OneResponse p q ∧ q.inst = (effect s.cfg.bufCap i p.inst).1 := by
  rw [exec_of_port i hp] at h
  cases h
  exact ⟨⟨fun ch hne => State.answer_port_ne s p _ _ hne, rfl, rfl, rfl⟩,
    _, State.answer_port hp _ _, ⟨_, rfl⟩, rfl⟩

/-- `FS.PUSH` either appends its byte or changes nothing (R137). -/
theorem fsPush_cases (cap : Nat) (d : Byte) (m : Inst) :
    fsPush cap d m = ({ m with buf := bufAppend d m.buf }, .ok) ∨ fsPush cap d m = (m, .full) := by
  unfold fsPush
  split
  · exact .inl rfl
  · exact .inr rfl

/-- A command of another unit leaves `crc16` (R55). -/
theorem effect_crc16 {i : Instr} (cap : Nat) (m : Inst) (h : i.unit ≠ .c16) :
    (effect cap i m).1.crc16 = m.crc16 := by
  cases i with
  | c16Init | c16Upd | c16Get => exact absurd rfl h
  | c32Init | c32Upd | c32Get | fsClr | fsParse | fsLevel => rfl
  | fsPush d => rcases fsPush_cases cap d m with e | e <;> rw [effect, e]

/-- A command of another unit leaves `crc32` (R55). -/
theorem effect_crc32 {i : Instr} (cap : Nat) (m : Inst) (h : i.unit ≠ .c32) :
    (effect cap i m).1.crc32 = m.crc32 := by
  cases i with
  | c32Init | c32Upd | c32Get => exact absurd rfl h
  | c16Init | c16Upd | c16Get | fsClr | fsParse | fsLevel => rfl
  | fsPush d => rcases fsPush_cases cap d m with e | e <;> rw [effect, e]

/-- A command of another unit leaves the buffer (R55). -/
theorem effect_buf {i : Instr} (cap : Nat) (m : Inst) (h : i.unit ≠ .fs) :
    (effect cap i m).1.buf = m.buf := by
  cases i with
  | fsClr | fsPush | fsParse | fsLevel => exact absurd rfl h
  | c16Init | c16Upd | c16Get | c32Init | c32Upd | c32Get => rfl

/-- Settles O20, with `exec_frame` and what a command of the CRC16 unit leaves in the instance. -/
theorem c16CommandsFrame : Obligations.C16CommandsFrame := by
  intro i s t p hu hp h
  obtain ⟨hothers, q, hq, hresp, hinst⟩ := exec_frame hp h
  have hne32 : i.unit ≠ .c32 := by simp [hu]
  have hnefs : i.unit ≠ .fs := by simp [hu]
  refine ⟨hothers, q, hq, hresp, ?_, fun a => ?_, ?_⟩
  · rw [hinst, effect_crc32 _ _ hne32]
  · rw [hinst, effect_buf _ _ hnefs]
  · rintro rfl
    rw [hinst]
    rfl

/-- Settles O30, with `exec_frame` and what a command of the CRC32 unit leaves in the instance. -/
theorem c32CommandsFrame : Obligations.C32CommandsFrame := by
  intro i s t p hu hp h
  obtain ⟨hothers, q, hq, hresp, hinst⟩ := exec_frame hp h
  have hne16 : i.unit ≠ .c16 := by simp [hu]
  have hnefs : i.unit ≠ .fs := by simp [hu]
  refine ⟨hothers, q, hq, hresp, ?_, fun a => ?_, ?_⟩
  · rw [hinst, effect_crc16 _ _ hne16]
  · rw [hinst, effect_buf _ _ hnefs]
  · rintro rfl
    rw [hinst]
    rfl

/-! ### The buffer under the FS commands -/

/-- Steps 3 to 6 only remove bytes from the front (R133 to R135). -/
theorem parseAtHeader_suffix (buf : Memory) : (parseAtHeader buf).1 <:+ buf := by
  rcases parseAtHeader_cases buf with ⟨e, -⟩ | ⟨-, -, -, -, e⟩ | ⟨-, -, -, e⟩
  · rw [e]
  · rw [e]
    exact List.drop_suffix _ buf
  · rw [e]
    exact List.drop_suffix 1 buf

/-- One FS.PARSE only removes bytes from the front (R136). -/
theorem parse_suffix (buf : Memory) : (parse buf).1 <:+ buf := by
  cases hh : findHeader buf with
  | none =>
    rw [parse_of_none hh]
    exact List.nil_suffix
  | some n =>
    rw [parse_of_some hh]
    exact (parseAtHeader_suffix (bufDrop n buf)).trans (List.drop_suffix n buf)

/-- One FS.PARSE as the removal of a number of front bytes. -/
theorem parse_eq_drop (buf : Memory) : ∃ k ≤ buf.length, (parse buf).1 = bufDrop k buf :=
  ⟨_, Nat.sub_le _ _, List.suffix_iff_eq_drop.mp (parse_suffix buf)⟩

/-- `FS.PUSH` stores at the back or nowhere (R40, R137). -/
theorem fsPush_getElem?_of_ne (cap : Nat) (d : Byte) (m : Inst) {a : Nat} (ha : a ≠ m.buf.length) :
    (fsPush cap d m).1.buf[a]? = m.buf[a]? := by
  rcases fsPush_cases cap d m with e | e <;> rw [e]
  rw [bufAppend_getElem?, if_neg ha]

/-- Settles O41, with `exec_frame` and one fact about the buffer for each of the four commands. -/
theorem fsCommandsFrame : Obligations.FsCommandsFrame := by
  intro i s t p hu hp h
  obtain ⟨hothers, q, hq, hresp, hinst⟩ := exec_frame hp h
  have hne16 : i.unit ≠ .c16 := by simp [hu]
  have hne32 : i.unit ≠ .c32 := by simp [hu]
  refine ⟨hothers, q, hq, hresp, ?_, ?_, ?_, ?_, ?_, ?_⟩
  · rw [hinst, effect_crc16 _ _ hne16]
  · rw [hinst, effect_crc32 _ _ hne32]
  · rintro rfl a
    rw [hinst]
    rfl
  · rintro d rfl a ha
    rw [hinst]
    exact fsPush_getElem?_of_ne _ d p.inst ha
  · rintro rfl
    obtain ⟨k, hk, e⟩ := parse_eq_drop p.inst.buf
    refine ⟨k, hk, fun a => ?_⟩
    rw [hinst, ← bufDrop_getElem?, ← e]
    rfl
  · rintro rfl a
    rw [hinst]
    rfl

/-! ### One channel -/

/-- A command word on a channel that exists: what it leaves there, and that it leaves the other channels. -/
theorem step_word_of_port {s : State} {ch : Nat} {w : CmdWord} {rest : List HostInput} {p : Port}
    (hin : s.inputs = .command ch w :: rest) (hp : s.ports[ch]? = some p) :
    ∃ t, step s = .next t ∧
      t.ports[ch]? = some
        { inst := (wordEffect s.cfg.bufCap w p.inst).1
          unread := p.unread ++ [(wordEffect s.cfg.bufCap w p.inst).2] } ∧
      ∀ o, o ≠ ch → t.ports[o]? = s.ports[o]? := by
  let u : State := { s with sel := ch, inputs := rest }
  have hpu : u.ports[u.sel]? = some p := hp
  exact ⟨_, (step_word hin).trans (onChannel_of_port hpu), State.answer_port hpu _ _,
    fun o ho => State.answer_port_ne u p _ _ ho⟩

/-- Settles O51: the port that `step_word_of_port` gives depends on `BUF_CAP`, the word and the port before only. -/
theorem commandTouchesItsOwnInstanceOnly : Obligations.CommandTouchesItsOwnInstanceOnly := by
  intro s s' ch p w rest rest' hin hin' hp hp' hcap
  obtain ⟨t, hstep, hport, hothers⟩ := step_word_of_port hin hp
  obtain ⟨t', hstep', hport', hothers'⟩ := step_word_of_port hin' hp'
  refine ⟨t, t', hstep, hstep', ?_, hothers, hothers'⟩
  rw [hport, hport', hcap]

/-! ### The values after reset -/

theorem c16Init_reset : c16Init Inst.reset = (Inst.reset, .ok) := rfl

theorem c32Init_reset : c32Init Inst.reset = (Inst.reset, .ok) := rfl

/-- Settles O11: the ports after reset are copies of `Port.reset`, and the `INIT` commands write what stands there. -/
theorem resetLeavesTheInitialValues : Obligations.ResetLeavesTheInitialValues := by
  refine ⟨fun c => ⟨List.length_replicate, fun p hp => ?_⟩, rfl, fun s p hp hreset => ?_⟩
  · rw [State.resetWith_ports] at hp
    rw [List.eq_of_mem_replicate hp]
    exact ⟨Inst.reset_crc16, Inst.reset_crc32, Inst.reset_buf⟩
  · rw [exec_of_port .c16Init hp, exec_of_port .c32Init hp, hreset]
    simp only [effect, c16Init_reset, c32Init_reset, and_self]

end Sys2Proof.Machine
end

section
/-!
SUPPORT. The memory family (`20_memory.md`): the host's read of a response, what a command reads and writes within its
instance, and which adjacent commands commute.
-/
namespace Sys2Proof.Machine

open Sys2Proof

/-! ### The host's read -/

/-- Settles O13, with `step_read`: the tail of the unread responses is what stood behind the oldest one. -/
theorem hostReadTakesTheOldestResponse : Obligations.HostReadTakesTheOldestResponse := by
  intro s ch p r rs rest hin hp hunread
  have hread := hostRead_of_port (s := { s with inputs := rest }) hp
  rw [hunread] at hread
  exact (step_read hin).trans hread

/-! ### The state of one unit -/

theorem SameFor.refl (u : FunUnit) (m : Inst) : SameFor u m m := by
  cases u <;> rfl

theorem SameFor.symm {u : FunUnit} {m n : Inst} (h : SameFor u m n) : SameFor u n m := by
  cases u <;> exact Eq.symm h

theorem SameFor.trans {u : FunUnit} {k m n : Inst} (h : SameFor u k m) (h' : SameFor u m n) : SameFor u k n := by
  cases u <;> exact Eq.trans h h'

/-- An instance is the state of its three units and nothing else (R20). -/
theorem Inst.eq_of_sameFor {m n : Inst} (h : ∀ u, SameFor u m n) : m = n := by
  have h16 : m.crc16 = n.crc16 := h .c16
  have h32 : m.crc32 = n.crc32 := h .c32
  have hbuf : m.buf = n.buf := h .fs
  cases m
  cases n
  simp only at h16 h32 hbuf
  rw [h16, h32, hbuf]

/-- A command writes the state of its own unit only (R55). -/
theorem effect_sameFor_of_ne {i : Instr} {u : FunUnit} (cap : Nat) (m : Inst) (h : u ≠ i.unit) :
    SameFor u (effect cap i m).1 m := by
  cases u with
  | c16 => exact effect_crc16 cap m h.symm
  | c32 => exact effect_crc32 cap m h.symm
  | fs => exact effect_buf cap m h.symm

/-- `FS.PUSH` reads the buffer only. -/
theorem fsPush_congr (cap : Nat) (d : Byte) {m n : Inst} (h : m.buf = n.buf) :
    (fsPush cap d m).1.buf = (fsPush cap d n).1.buf ∧ (fsPush cap d m).2 = (fsPush cap d n).2 := by
  unfold fsPush
  rw [h]
  split
  · exact ⟨rfl, rfl⟩
  · exact ⟨h, rfl⟩

/-- A command reads the state of its own unit only: what it does to that state and what it responds depend on nothing
else (R55). -/
theorem effect_congr {i : Instr} (cap : Nat) {m n : Inst} (h : SameFor i.unit m n) :
    SameFor i.unit (effect cap i m).1 (effect cap i n).1 ∧ (effect cap i m).2 = (effect cap i n).2 := by
  cases i with
  | c16Init | c32Init | fsClr => exact ⟨rfl, rfl⟩
  | c16Upd d => exact ⟨congrArg (crc16Step · d) h, rfl⟩
  | c32Upd d => exact ⟨congrArg (crc32Step · d) h, rfl⟩
  | c16Get => exact ⟨h, congrArg Response.val16 h⟩
  | c32Get => exact ⟨h, congrArg (fun c => Response.val32 (c ^^^ Config.xorOut32)) h⟩
  | fsPush d => exact fsPush_congr cap d h
  | fsParse => exact ⟨congrArg (fun buf => (parse buf).1) h, congrArg (fun buf => (parse buf).2) h⟩
  | fsLevel => exact ⟨h, congrArg (fun buf : Memory => Response.level buf.length) h⟩

/-- A command keeps two instances equal in a unit's state, whether it is the command's own unit or another. -/
theorem effect_sameFor {u : FunUnit} (i : Instr) (cap : Nat) {m n : Inst} (h : SameFor u m n) :
    SameFor u (effect cap i m).1 (effect cap i n).1 := by
  by_cases hu : u = i.unit
  · subst hu
    exact (effect_congr cap h).1
  · exact (effect_sameFor_of_ne cap m hu).trans (h.trans (effect_sameFor_of_ne cap n hu).symm)

/-! ### Commands on one channel exchanged -/

/-- A command of another unit before a command does not change its response. -/
theorem effect_response_of_unit_ne {i j : Instr} (cap : Nat) (m : Inst) (h : i.unit ≠ j.unit) :
    (effect cap i (effect cap j m).1).2 = (effect cap i m).2 :=
  (effect_congr cap (effect_sameFor_of_ne cap m h)).2

/-- Commands of different units, in either order, leave the same instance: a unit's state is left alone by one of the
two, so it is what the other one alone makes of it. -/
theorem effect_comm_of_unit_ne {i j : Instr} (cap : Nat) (m : Inst) (h : i.unit ≠ j.unit) :
    (effect cap j (effect cap i m).1).1 = (effect cap i (effect cap j m).1).1 := by
  refine Inst.eq_of_sameFor fun u => ?_
  by_cases hu : u = j.unit
  · have hi : u ≠ i.unit := fun e => h (e.symm.trans hu)
    exact (effect_sameFor j cap (effect_sameFor_of_ne cap m hi)).trans (effect_sameFor_of_ne cap _ hi).symm
  · exact (effect_sameFor_of_ne cap _ hu).trans (effect_sameFor i cap (effect_sameFor_of_ne cap m hu).symm)

/-- Two commands on a channel that exists: the effects one after the other, and both responses. -/
theorem execThen_of_port {s : State} {p : Port} (i j : Instr) (hp : s.serves p) :
    execThen i j s = .next { s with
      ports := s.ports.set s.sel
        { inst := (effect s.cfg.bufCap j (effect s.cfg.bufCap i p.inst).1).1
          unread := p.unread ++
            [(effect s.cfg.bufCap i p.inst).2, (effect s.cfg.bufCap j (effect s.cfg.bufCap i p.inst).1).2] } } := by
  simp only [execThen, exec_of_port i hp]
  rw [exec_of_port j (State.answer_port hp _ _)]
  simp [State.answer]

/-- Commands of different units may be exchanged. -/
theorem mayBeExchanged_of_unit_ne {i j : Instr} {s : State} {p : Port} (h : i.unit ≠ j.unit) (hp : s.serves p) :
    MayBeExchanged i j s p := by
  refine ⟨_, _, _, execThen_of_port i j hp, ?_⟩
  rw [execThen_of_port j i hp, effect_comm_of_unit_ne _ _ h, effect_response_of_unit_ne _ _ h,
    effect_response_of_unit_ne _ _ h.symm]

/-- Two runs that both put one port on a channel that exists put the same port there. -/
theorem port_eq_of_next_set_eq {s : State} {p q q' : Port} (hp : s.serves p)
    (h : (.next { s with ports := s.ports.set s.sel q } : Host.Outcome State Fault Refusal) =
      .next { s with ports := s.ports.set s.sel q' }) : q = q' := by
  have hlt : s.sel < s.ports.length := (List.getElem?_eq_some_iff.mp hp).1
  have hset := congrArg (fun t : State => t.ports[s.sel]?) (Host.Outcome.next.inj h)
  simpa [hlt] using hset

/-- Commands may not be exchanged when one of them answers differently after the other. -/
theorem not_mayBeExchanged_of_response_ne {i j : Instr} {s : State} {p : Port} (hp : s.serves p)
    (h : (effect s.cfg.bufCap i p.inst).2 ≠ (effect s.cfg.bufCap i (effect s.cfg.bufCap j p.inst).1).2) :
    ¬ MayBeExchanged i j s p := by
  rintro ⟨m, ri, rj, hij, hji⟩
  rw [execThen_of_port i j hp] at hij
  rw [execThen_of_port j i hp] at hji
  have eij := congrArg Port.unread (port_eq_of_next_set_eq hp hij)
  have eji := congrArg Port.unread (port_eq_of_next_set_eq hp hji)
  simp only [List.append_cancel_left_eq, List.cons.injEq, and_true] at eij eji
  exact h (eij.1.trans eji.2.symm)

/-- In every unit a command that reads the state answers differently after one that writes it: seen right after reset. -/
theorem exists_not_mayBeExchanged (u : FunUnit) :
    ∃ (i j : Instr) (s : State) (p : Port), i.unit = u ∧ j.unit = u ∧ s.serves p ∧ ¬ MayBeExchanged i j s p := by
  have hp : State.reset.serves Port.reset := rfl
  cases u with
  | c16 =>
    exact ⟨.c16Get, .c16Upd 1, _, _, rfl, rfl, hp, not_mayBeExchanged_of_response_ne hp (by decide)⟩
  | c32 =>
    exact ⟨.c32Get, .c32Upd 0, _, _, rfl, rfl, hp, not_mayBeExchanged_of_response_ne hp (by decide)⟩
  | fs =>
    exact ⟨.fsLevel, .fsPush 0, _, _, rfl, rfl, hp, not_mayBeExchanged_of_response_ne hp (by decide)⟩

/-- Settles O52: a command reads and writes its own unit's state (`effect_congr`, `effect_sameFor_of_ne`), hence commands
of different units commute; reading and writing one unit's state do not. -/
theorem unitsShareNoState : Obligations.UnitsShareNoState := by
  refine ⟨fun i s s' p p' hp hp' hsame hcap => ?_, fun i j s p hu hp => mayBeExchanged_of_unit_ne hu hp,
    exists_not_mayBeExchanged⟩
  obtain ⟨hstate, hresp⟩ := effect_congr s.cfg.bufCap hsame
  refine ⟨_, _, _, exec_of_port i hp, ?_, hstate, fun u hu => effect_sameFor_of_ne _ _ hu⟩
  rw [exec_of_port i hp', ← hcap, hresp]

/-! ### Commands on different channels exchanged -/

/-- A run of some steps and then others. -/
theorem run_add {k : Nat} {s t : State} (n : Nat) (h : core.run k s = .next t) :
    core.run (k + n) s = core.run n t := by
  induction k generalizing s with
  | zero =>
    cases h
    rw [Nat.zero_add]
  | succ k ih =>
    rw [Nat.succ_add]
    simp only [Host.Core.run] at h ⊢
    cases hs : core.step s with
    | next u =>
      rw [hs] at h
      exact ih h
    | fault | refused =>
      rw [hs] at h
      cases h

/-- The port of a channel after a command word on it. -/
def Port.afterWord (cap : Nat) (w : CmdWord) (p : Port) : Port :=
  { inst := (wordEffect cap w p.inst).1, unread := p.unread ++ [(wordEffect cap w p.inst).2] }

/-- One command word on a channel that exists: the port there, the parameters and the inputs after it. -/
theorem run_word {s : State} {ch : Nat} {p : Port} {w : CmdWord} {rest : List HostInput}
    (hp : s.ports[ch]? = some p) (hin : s.inputs = .command ch w :: rest) :
    ∃ t, core.run 1 s = .next t ∧ t.inputs = rest ∧ t.cfg = s.cfg ∧
      t.ports = s.ports.set ch (p.afterWord s.cfg.bufCap w) :=
  run_words [w] s ch p rest hp hin

/-- Two command words on different channels: each port is what its own word makes of it. -/
theorem run_two_words {s : State} {a b : Nat} {p q : Port} {v w : CmdWord} {rest : List HostInput} (hab : a ≠ b)
    (hp : s.ports[a]? = some p) (hq : s.ports[b]? = some q)
    (hin : s.inputs = .command a v :: .command b w :: rest) :
    ∃ t, core.run 2 s = .next t ∧ t.inputs = rest ∧
      t.ports = (s.ports.set a (p.afterWord s.cfg.bufCap v)).set b (q.afterWord s.cfg.bufCap w) := by
  obtain ⟨u, hrun, hinu, hcfg, hports⟩ := run_word hp hin
  have hqu : u.ports[b]? = some q := by rw [hports, List.getElem?_set_ne hab, hq]
  obtain ⟨t, hrun', hint, -, hports'⟩ := run_word hqu hinu
  refine ⟨t, (run_add 1 hrun).trans hrun', hint, ?_⟩
  rw [hports', hports, hcfg]

/-- Settles O53: each order replaces the two ports by the same ones (`run_two_words`), and replacements at different
channels commute. -/
theorem instancesShareNoState : Obligations.InstancesShareNoState := by
  rintro s _ a b v w rest hab ha hb hin rfl
  obtain ⟨t, hrun, hint, hports⟩ :=
    run_two_words hab (List.getElem?_eq_getElem ha) (List.getElem?_eq_getElem hb) hin
  obtain ⟨t', hrun', hint', hports'⟩ :=
    run_two_words (s := { s with inputs := .command b w :: .command a v :: rest }) hab.symm
      (List.getElem?_eq_getElem hb) (List.getElem?_eq_getElem ha) rfl
  refine ⟨t, t', hrun, hrun', ?_, hint, hint'⟩
  rw [hports, hports']
  exact List.set_comm _ _ hab

end Sys2Proof.Machine
end

section
/-!
SUPPORT. The command word (`30_encoding.md` Part B): the decoder and the encoder are inverse to each other, the rows of
the opcode table select what the decoder reads as a command, and how many words that is.
-/
namespace Sys2Proof

/-! ### Decoding and encoding -/

/-- The two fields of a command are read as that command (R73). -/
theorem decodeFields_fields (i : Instr) : decodeFields { op := i.opByte, d := i.operandByte } = .cmd i := by
  cases i <;> rfl

@[simp] theorem decode_encode (i : Instr) : decode (encode i) = .cmd i := by
  rw [decode, fieldsOf_encode, decodeFields_fields]

/-- The opcode of an operand-less command gives that command, and for the operand `0x00` alone (R74). -/
theorem fields_of_bareCmd {f : CmdFields} {i j : Instr} (h : bareCmd j f.d = .cmd i) (hop : f.op = j.opByte)
    (hj : j.operandByte = 0x00#8) : f = { op := i.opByte, d := i.operandByte } := by
  unfold bareCmd at h
  split at h
  · next hd =>
    cases h
    rw [← hop, hj, ← hd]
  · cases h

/-- The opcode of a command with an operand gives that command with the operand field as its byte (R72). -/
theorem fields_of_cmd {f : CmdFields} {i j : Instr} (h : Decoded.cmd j = .cmd i) (hop : f.op = j.opByte)
    (hd : f.d = j.operandByte) : f = { op := i.opByte, d := i.operandByte } := by
  cases h
  rw [← hop, ← hd]

/-- Two fields that are read as a command are the fields of that command: one case for each row of R73. -/
theorem fields_of_decodeFields_eq_cmd {f : CmdFields} {i : Instr} (h : decodeFields f = .cmd i) :
    f = { op := i.opByte, d := i.operandByte } := by
  unfold decodeFields at h
  split_ifs at h with h10 h11 h12 h20 h21 h22 h30 h31 h32 h33
  · exact fields_of_bareCmd h h10 rfl
  · exact fields_of_cmd h h11 rfl
  · exact fields_of_bareCmd h h12 rfl
  · exact fields_of_bareCmd h h20 rfl
  · exact fields_of_cmd h h21 rfl
  · exact fields_of_bareCmd h h22 rfl
  · exact fields_of_bareCmd h h30 rfl
  · exact fields_of_cmd h h31 rfl
  · exact fields_of_bareCmd h h32 rfl
  · exact fields_of_bareCmd h h33 rfl

/-- A word that decodes to a command is that command's word. -/
theorem encode_of_decode {w : CmdWord} {i : Instr} (h : decode w = .cmd i) : encode i = w := by
  have hf : fieldsOf w = { op := i.opByte, d := i.operandByte } := fields_of_decodeFields_eq_cmd h
  obtain ⟨hop, hd⟩ := CmdFields.mk.inj hf
  calc encode i
      = (opField w ++ operandField w : BitVec 16) := by rw [encode, hop, hd]
    _ = w := opField_append_operandField w

theorem decode_eq_cmd_iff {w : CmdWord} {i : Instr} : decode w = .cmd i ↔ encode i = w :=
  ⟨encode_of_decode, fun h => h ▸ decode_encode i⟩

/-- No two commands have the same word. -/
theorem encode_injective : Function.Injective encode := by
  intro i j h
  have hcmd : Decoded.cmd i = .cmd j := by rw [← decode_encode i, h, decode_encode j]
  exact Decoded.cmd.inj hcmd

/-- Settles O2, by `decode_encode` and `encode_of_decode`. -/
theorem decodeAndEncodeAgree : Obligations.DecodeAndEncodeAgree :=
  ⟨decode_encode, fun _ _ => encode_of_decode⟩

/-- Settles O1: each listed word is the word of the command beside it. -/
theorem decodeReadsTheListedWords : Obligations.DecodeReadsTheListedWords :=
  ⟨decode_encode .c16Init, decode_encode (.c16Upd 0x31), decode_encode .c16Get,
    decode_encode .c32Init, decode_encode (.c32Upd 0xFF), decode_encode .c32Get,
    decode_encode .fsClr, decode_encode (.fsPush 0xAB), decode_encode .fsParse, decode_encode .fsLevel,
    decode_encode (.c16Upd 0), decode_encode (.c32Upd 0), decode_encode (.fsPush 0)⟩

/-! ### The rows of the opcode table -/

theorem row_mem_opcodeRows (i : Instr) : i.row ∈ opcodeRows := by
  cases i <;> simp [opcodeRows, tableCommands, Instr.row]

/-- A command's word satisfies the match and mask of its row (R73). -/
theorem row_selects_encode (i : Instr) : i.row.selects (encode i) = true := by
  cases i with
  | c16Init => exact Laws.MatchesRow.c16Init.1
  | c16Upd d => exact (Laws.MatchesRow.c16Upd d).1
  | c16Get => exact Laws.MatchesRow.c16Get.1
  | c32Init => exact Laws.MatchesRow.c32Init.1
  | c32Upd d => exact (Laws.MatchesRow.c32Upd d).1
  | c32Get => exact Laws.MatchesRow.c32Get.1
  | fsClr => exact Laws.MatchesRow.fsClr.1
  | fsPush d => exact (Laws.MatchesRow.fsPush d).1
  | fsParse => exact Laws.MatchesRow.fsParse.1
  | fsLevel => exact Laws.MatchesRow.fsLevel.1

/-- The full mask `0xFFFF` fixes the whole word. -/
theorem eq_of_selects_fullMask {n : String} {v w : CmdWord} (h : OpcodeRow.selects ⟨n, v, 0xFFFF#16⟩ w = true) :
    v = w := by
  have hand : w &&& BitVec.allOnes 16 = v := eq_of_beq h
  rw [← hand, BitVec.and_allOnes]

/-- The mask `0xFF00` fixes the opcode field. -/
theorem opField_eq_of_selects_opMask {n : String} {v w : CmdWord} (h : OpcodeRow.selects ⟨n, v, 0xFF00#16⟩ w = true) :
    opField w = opField v := by
  have hand : w &&& 0xFF00#16 = v := eq_of_beq h
  rw [← hand, ← opField_append_operandField w, Laws.MatchesRow.mask_operand, opField_append, opField_append]

/-- A word with the opcode of a command that takes an operand is that command's word for its operand field. -/
theorem encode_operandField {w : CmdWord} {i : Instr} (hop : opField w = i.opByte)
    (hd : operandField w = i.operandByte) : encode i = w := by
  rw [encode, ← hop, ← hd, opField_append_operandField]

/-- A word that a row selects is the word of a command of that row: the row of an operand-less command selects its one
word, the row of a command with an operand selects the words of its opcode. -/
theorem exists_encode_of_row_selects {i : Instr} {w : CmdWord} (h : i.row.selects w = true) :
    ∃ j, j.row = i.row ∧ encode j = w := by
  cases i with
  | c16Upd => exact ⟨.c16Upd (operandField w), rfl, encode_operandField (opField_eq_of_selects_opMask h) rfl⟩
  | c32Upd => exact ⟨.c32Upd (operandField w), rfl, encode_operandField (opField_eq_of_selects_opMask h) rfl⟩
  | fsPush => exact ⟨.fsPush (operandField w), rfl, encode_operandField (opField_eq_of_selects_opMask h) rfl⟩
  | c16Init | c16Get | c32Init | c32Get | fsClr | fsParse | fsLevel =>
    exact ⟨_, rfl, eq_of_selects_fullMask h⟩

/-- What a row of the table selects: exactly the words of its commands. -/
theorem selects_iff {r : OpcodeRow} (hr : r ∈ opcodeRows) (w : CmdWord) :
    r.selects w = true ↔ ∃ i, i.row = r ∧ encode i = w := by
  obtain ⟨i, -, rfl⟩ := List.mem_map.mp hr
  refine ⟨exists_encode_of_row_selects, ?_⟩
  rintro ⟨j, hrow, rfl⟩
  exact hrow ▸ row_selects_encode j

/-- Settles O3: a row selects exactly the words of its commands (`selects_iff`), and no word is that of two commands. -/
theorem opcodeRowsSelectExactlyTheCommands : Obligations.OpcodeRowsSelectExactlyTheCommands := by
  refine ⟨rfl, fun w i h => ?_, fun w r hr h => ?_, fun w r hr r' hr' h h' => ?_⟩
  · rw [← encode_of_decode h]
    exact ⟨row_mem_opcodeRows i, row_selects_encode i⟩
  · obtain ⟨i, hrow, rfl⟩ := (selects_iff hr w).mp h
    exact ⟨i, decode_encode i, hrow⟩
  · obtain ⟨i, rfl, hi⟩ := (selects_iff hr w).mp h
    obtain ⟨j, rfl, hj⟩ := (selects_iff hr' w).mp h'
    rw [encode_injective (hi.trans hj.symm)]

/-! ### Legal and illegal words -/

/-- The words that satisfy a row are the words of the commands. -/
theorem exists_row_selects_iff (w : CmdWord) : (∃ r ∈ opcodeRows, r.selects w = true) ↔ w ∈ Set.range encode := by
  constructor
  · rintro ⟨r, hr, h⟩
    obtain ⟨i, -, hi⟩ := (selects_iff hr w).mp h
    exact ⟨i, hi⟩
  · rintro ⟨i, rfl⟩
    exact ⟨i.row, row_mem_opcodeRows i, row_selects_encode i⟩

/-- The words that satisfy no row are the others. -/
theorem forall_row_not_selects_iff (w : CmdWord) :
    (∀ r ∈ opcodeRows, r.selects w = false) ↔ w ∉ Set.range encode := by
  rw [← exists_row_selects_iff]
  simp

/-- The decoder calls exactly the words of no row illegal (R74). -/
theorem decode_illegal_iff (w : CmdWord) :
    (∃ why, decode w = .illegal why) ↔ ∀ r ∈ opcodeRows, r.selects w = false := by
  rw [forall_row_not_selects_iff]
  cases hdec : decode w with
  | cmd i => simp [← decode_eq_cmd_iff, hdec]
  | illegal why => simp [← decode_eq_cmd_iff, hdec]

theorem natCard_bitVec (n : Nat) : Nat.card (BitVec n) = 2 ^ n := by
  rw [Nat.card_congr BitVec.equivFin.toEquiv, Nat.card_fin]

/-- The commands by their rows: a row without an operand has one command, a row with an operand one for each byte. -/
def commandShapes : Unit ⊕ Byte ⊕ Unit ⊕ Unit ⊕ Byte ⊕ Unit ⊕ Unit ⊕ Byte ⊕ Unit ⊕ Unit ≃ Instr := proxy_equiv% Instr

/-- There are `7 + 3 * 256` commands. -/
theorem natCard_instr : Nat.card Instr = 775 := by
  rw [← Nat.card_congr commandShapes]
  simp only [Nat.card_sum, Nat.card_unique, natCard_bitVec, Nat.reducePow, Nat.reduceAdd]

/-- The number of legal words. -/
theorem ncard_range_encode : (Set.range encode).ncard = 775 :=
  (Set.ncard_range_of_injective encode_injective).trans natCard_instr

/-- The number of illegal words. -/
theorem ncard_compl_range_encode : (Set.range encode)ᶜ.ncard = 64761 := by
  rw [Set.ncard_compl, ncard_range_encode, natCard_bitVec]
  norm_num

end Sys2Proof
end

section
/-!
SUPPORT. A step with a command word (`30_encoding.md` R70, R74): one response, with the word's effect on the instance of
its channel, which is none for a word of no row.
-/
namespace Sys2Proof.Machine

open Sys2Proof

/-- A step with a command word on a channel that exists answers with the word's effect on the instance there. -/
theorem step_word_answered {s : State} {ch : Nat} {w : CmdWord} {rest : List HostInput} {p : Port}
    (hin : s.inputs = .command ch w :: rest) (hp : s.ports[ch]? = some p) :
    step s = ({ s with sel := ch, inputs := rest } : State).answered p
      (wordEffect s.cfg.bufCap w p.inst).1 (wordEffect s.cfg.bufCap w p.inst).2 :=
  (step_word hin).trans (onChannel_of_port (s := { s with sel := ch, inputs := rest }) hp)

/-- A word of no row acts as an illegal word (R74). -/
theorem wordEffect_of_no_row {w : CmdWord} (cap : Nat) (h : ∀ r ∈ opcodeRows, r.selects w = false) :
    wordEffect cap w = illegalWord := by
  obtain ⟨why, hdec⟩ := (decode_illegal_iff w).mpr h
  exact wordEffect_of_decode_illegal cap hdec

/-- Settles O4: a word of no row acts as an illegal word, and the words of the rows are the commands' words. -/
theorem illegalWordChangesNothingAndRespondsIllegal : Obligations.IllegalWordChangesNothingAndRespondsIllegal := by
  refine ⟨fun s ch p w rest hin hp hrow => ?_, ?_, ?_⟩
  · rw [step_word_answered hin hp, wordEffect_of_no_row _ hrow]
    rfl
  · exact (congrArg Set.ncard (Set.ext exists_row_selects_iff)).trans ncard_range_encode
  · exact (congrArg Set.ncard (Set.ext forall_row_not_selects_iff)).trans ncard_compl_range_encode

/-- Settles O6: the instance and the response are those of the word's effect, legal or not. -/
theorem everyWordGetsExactlyOneResponse : Obligations.EveryWordGetsExactlyOneResponse := by
  intro s ch p w rest hin hp
  exact ⟨_, _, step_word_answered hin hp⟩

end Sys2Proof.Machine
end

section
/-!
SUPPORT. The response to a command (`30_encoding.md` R77): the header search finds the least index of a header, FS.PARSE
answers `FRAME` exactly when a complete frame stands there, and each command keeps to the statuses of its row.
-/
namespace Sys2Proof.Machine

open Sys2Proof

/-! ### The header search -/

theorem headerAt_zero_iff (a b : Byte) (rest : List Byte) :
    HeaderAt (a :: b :: rest) 0 ↔ a = Config.hdr0 ∧ b = Config.hdr1 := by
  simp [HeaderAt]

theorem headerAt_succ_iff (a : Byte) (l : List Byte) (n : Nat) : HeaderAt (a :: l) (n + 1) ↔ HeaderAt l n := by
  simp [HeaderAt]

/-- A header lies within the buffer. -/
theorem HeaderAt.add_two_le {l : List Byte} {n : Nat} (h : HeaderAt l n) : n + 2 ≤ l.length :=
  (List.getElem?_eq_some_iff.mp h.2).1

/-- The header that `findHeader` reports stands there, and no other stands before it. -/
theorem firstHeader_of_findHeader {l : List Byte} {n : Nat} (h : findHeader l = some n) : FirstHeader l n := by
  fun_induction findHeader l generalizing n with
  | case1 a b rest hd =>
    cases h
    exact ⟨(headerAt_zero_iff a b rest).mpr hd, nofun⟩
  | case2 a b rest hd ih =>
    obtain ⟨k, hk, rfl⟩ := Option.map_eq_some_iff.mp h
    obtain ⟨hat, hleast⟩ := ih hk
    refine ⟨(headerAt_succ_iff a _ k).mpr hat, fun j hj => ?_⟩
    cases j with
    | zero => exact mt (headerAt_zero_iff a b rest).mp hd
    | succ j => exact mt (headerAt_succ_iff a _ j).mp (hleast j (by omega))
  | case3 => cases h
  | case4 => cases h

/-- Where `findHeader` reports nothing, no header stands. -/
theorem not_headerAt_of_findHeader {l : List Byte} (h : findHeader l = none) (n : Nat) : ¬ HeaderAt l n := by
  fun_induction findHeader l generalizing n with
  | case1 => cases h
  | case2 a b rest hd ih =>
    cases n with
    | zero => exact mt (headerAt_zero_iff a b rest).mp hd
    | succ n => exact mt (headerAt_succ_iff a _ n).mp (ih (Option.map_eq_none_iff.mp h) n)
  | case3 a =>
    intro hat
    have hlen : n + 2 ≤ 1 := hat.add_two_le
    omega
  | case4 =>
    intro hat
    have hlen : n + 2 ≤ 0 := hat.add_two_le
    omega

/-- There is at most one least index. -/
theorem FirstHeader.unique {l : List Byte} {m n : Nat} (hm : FirstHeader l m) (hn : FirstHeader l n) : m = n := by
  rcases lt_trichotomy m n with h | h | h
  · exact absurd hm.1 (hn.2 m h)
  · exact h
  · exact absurd hn.1 (hm.2 n h)

/-- `findHeader` finds the least index of a header (R131). -/
theorem findHeader_eq_some_iff {l : List Byte} {n : Nat} : findHeader l = some n ↔ FirstHeader l n := by
  refine ⟨firstHeader_of_findHeader, fun hn => ?_⟩
  cases hf : findHeader l with
  | none => exact absurd hn.1 (not_headerAt_of_findHeader hf n)
  | some m => rw [(firstHeader_of_findHeader hf).unique hn]

/-! ### The response of FS.PARSE -/

/-- A complete frame with a matching footer stands at the front (R134, R135). -/
def FrameAtFront (buf : Memory) : Prop :=
  ∃ lo hi, buf[2]? = some lo ∧ buf[3]? = some hi ∧ le16 lo hi + 8 ≤ buf.length ∧ FooterAt buf (le16 lo hi + 6)

/-- Steps 3 to 6 answer `FRAME` exactly when a frame stands at the front, and `NO_FRAME` otherwise. -/
theorem parseAtHeader_status (buf : Memory) :
    FrameAtFront buf ∧ (parseAtHeader buf).2.status = .frame ∨
      ¬ FrameAtFront buf ∧ (parseAtHeader buf).2.status = .noFrame := by
  rcases parseAtHeader_cases buf with ⟨e, hshort⟩ | ⟨h4, hT, h0, h1, e⟩ | ⟨-, -, hfooter, e⟩
  · refine .inr ⟨fun ⟨lo, hi, hlo, hhi, hT, _⟩ => ?_, by rw [e]; rfl⟩
    rw [byteAt_of_getElem? hlo, byteAt_of_getElem? hhi] at hshort
    omega
  · have hlo := (byteAt_eq_iff (show 2 < buf.length by omega) _).mp rfl
    have hhi := (byteAt_eq_iff (show 3 < buf.length by omega) _).mp rfl
    have hf0 := (byteAt_eq_iff (by omega) _).mp h0
    have hf1 := (byteAt_eq_iff (by omega) _).mp h1
    exact .inl ⟨⟨_, _, hlo, hhi, hT, hf0, hf1⟩, by rw [e]; rfl⟩
  · refine .inr ⟨fun ⟨lo, hi, hlo, hhi, _, hf0, hf1⟩ => hfooter ?_, by rw [e]; rfl⟩
    rw [byteAt_of_getElem? hlo, byteAt_of_getElem? hhi]
    exact ⟨byteAt_of_getElem? hf0, byteAt_of_getElem? hf1⟩

/-- The frame at the first header is the frame at the front of what the hunt leaves (R132). -/
theorem frameReady_iff_frameAtFront {buf : Memory} {h : Nat} (hh : FirstHeader buf h) :
    FrameReady buf ↔ FrameAtFront (bufDrop h buf) := by
  have hlen : (bufDrop h buf).length = buf.length - h := List.length_drop
  simp only [FrameAtFront, bufDrop_getElem?, hlen, FooterAt]
  constructor
  · rintro ⟨h', lo, hi, hh', hlo, hhi, hT, hfooter⟩
    obtain rfl := hh.unique hh'
    exact ⟨lo, hi, hlo, hhi, Nat.le_sub_of_add_le' hT, hfooter⟩
  · rintro ⟨lo, hi, hlo, hhi, hT, hfooter⟩
    refine ⟨h, lo, hi, hh, hlo, hhi, ?_, hfooter⟩
    rw [le16] at hT
    omega

/-- `FS.PARSE` answers `FRAME` exactly when a complete frame is ready, and `NO_FRAME` otherwise (R136). -/
theorem parse_status (buf : Memory) :
    FrameReady buf ∧ (parse buf).2.status = .frame ∨ ¬ FrameReady buf ∧ (parse buf).2.status = .noFrame := by
  cases hf : findHeader buf with
  | none =>
    refine .inr ⟨fun ⟨h, _, _, hh, _⟩ => not_headerAt_of_findHeader hf h hh.1, ?_⟩
    rw [parse_of_none hf]
    rfl
  | some h =>
    rw [parse_of_some hf, frameReady_iff_frameAtFront (firstHeader_of_findHeader hf)]
    exact parseAtHeader_status (bufDrop h buf)

/-! ### The statuses of R77 -/

/-- `FS.PUSH` answers `OK` exactly when there is room, and `FULL` otherwise (R137). -/
theorem fsPush_status (cap : Nat) (d : Byte) (m : Inst) :
    m.buf.length < cap ∧ (fsPush cap d m).2.status = .ok ∨ cap ≤ m.buf.length ∧ (fsPush cap d m).2.status = .full := by
  unfold fsPush
  split
  · next hlt => exact .inl ⟨hlt, rfl⟩
  · next hge => exact .inr ⟨not_lt.mp hge, rfl⟩

/-- Every command answers with a status of its own (R77). -/
theorem effect_status_mem (cap : Nat) (i : Instr) (m : Inst) : (effect cap i m).2.status ∈ statusesOf i := by
  cases i with
  | c16Init | c16Upd | c16Get | c32Init | c32Upd | c32Get | fsClr | fsLevel => exact List.mem_singleton_self _
  | fsPush d => rcases fsPush_status cap d m with ⟨-, e⟩ | ⟨-, e⟩ <;> simp [effect, statusesOf, e]
  | fsParse => rcases parse_status m.buf with ⟨-, e⟩ | ⟨-, e⟩ <;> simp [effect, fsParse, statusesOf, e]

/-- No command has `ILLEGAL` among its statuses (R77). -/
theorem illegal_not_mem_statusesOf (i : Instr) : Status.illegal ∉ statusesOf i := by
  cases i <;> simp [statusesOf]

/-- A word is answered `ILLEGAL` exactly when it satisfies no row (R74). -/
theorem wordEffect_status_illegal_iff (cap : Nat) (w : CmdWord) (m : Inst) :
    (wordEffect cap w m).2.status = .illegal ↔ ∀ row ∈ opcodeRows, row.selects w = false := by
  rw [← decode_illegal_iff]
  cases hdec : decode w with
  | cmd i =>
    rw [wordEffect_of_decode_cmd cap hdec]
    have hne : (effect cap i m).2.status ≠ .illegal := fun e =>
      illegal_not_mem_statusesOf i (e ▸ effect_status_mem cap i m)
    simp [hne]
  | illegal why =>
    rw [wordEffect_of_decode_illegal cap hdec]
    exact ⟨fun _ => ⟨why, rfl⟩, fun _ => rfl⟩

/-- Settles O7, from the status of a command's effect (`effect_status_mem`, `fsPush_status`, `parse_status`) and of a
word's (`wordEffect_status_illegal_iff`). -/
theorem responseStatusesFollowTheTable : Obligations.ResponseStatusesFollowTheTable := by
  refine ⟨fun i s p hp => ?_, fun s p d hp => ?_, fun s p hp => ?_, fun s p hp hwf => ?_,
    fun s ch p w rest hin hp => ?_, rfl⟩
  · exact ⟨_, _, exec_of_port i hp, effect_status_mem _ i p.inst⟩
  · refine ⟨_, _, exec_of_port (.fsPush d) hp, ?_⟩
    rcases fsPush_status s.cfg.bufCap d p.inst with ⟨hlt, e⟩ | ⟨hge, e⟩
    · simp [effect, e, hlt]
    · simp [effect, e, hge]
  · refine ⟨_, _, exec_of_port .fsParse hp, ?_⟩
    rcases parse_status p.inst.buf with ⟨hready, e⟩ | ⟨hready, e⟩
    · simp [effect, fsParse, e, hready]
    · simp [effect, fsParse, e, hready]
  · exact ⟨p.inst.buf.length, exec_of_port .fsLevel hp, hwf⟩
  · exact ⟨_, _, step_word_answered hin hp, wordEffect_status_illegal_iff _ w p.inst⟩

end Sys2Proof.Machine
end

section
/-!
SUPPORT. The textual form (`30_encoding.md` R80): it holds no comment sign and ends in no blank, so it is the text of
its line, and each command is found again by its mnemonic and its digits.
-/
namespace Sys2Proof.Machine

open Sys2Proof

/-! ### The text of a line -/

/-- A text without a comment sign whose last character is no blank is the text of its line, and of the line with a
comment after one blank. -/
theorem lineText_of_clean {t : List Char} (hsign : ∀ x ∈ t, x ≠ ';') (hlast : ∀ hne : t ≠ [], t.getLast hne ≠ ' ')
    (comment : List Char) : lineText t = t ∧ lineText (t ++ [' ', ';'] ++ comment) = t := by
  have hall : ∀ x ∈ t, decide (x ≠ ';') = true := fun x hx => decide_eq_true (hsign x hx)
  have hblank : t.rdropWhile (· = ' ') = t :=
    List.rdropWhile_eq_self_iff.mpr fun hne h => hlast hne (of_decide_eq_true h)
  have hcomment : (t ++ [' ', ';'] ++ comment).takeWhile (· ≠ ';') = t ++ [' '] := by
    rw [List.append_assoc, List.takeWhile_append_of_pos hall]
    rfl
  constructor
  · calc lineText t
        = (t.takeWhile (· ≠ ';')).rdropWhile (· = ' ') := rfl
      _ = t := by rw [List.takeWhile_eq_self_iff.mpr hall, hblank]
  · calc lineText (t ++ [' ', ';'] ++ comment)
        = ((t ++ [' ', ';'] ++ comment).takeWhile (· ≠ ';')).rdropWhile (· = ' ') := rfl
      _ = (t ++ [' ']).rdropWhile (· = ' ') := by rw [hcomment]
      _ = t := (List.rdropWhile_concat_pos (decide <| · = ' ') t ' ' (decide_eq_true rfl)).trans hblank

/-- A line is read as the command that its text is. -/
theorem readLine_of_lineText {l t : List Char} {i : Instr} (hl : lineText l = t) (hr : readCommand t = some i) :
    readLine l = .cmd i := by
  have hne : t ≠ [] := by
    rintro rfl
    cases hr
  simp only [readLine, hl, if_neg hne, hr]

/-! ### The operand -/

/-- The digit of a value below 16 reads back as it, and is neither the comment sign nor a blank. -/
theorem hexDigit_of_lt {n : Nat} (h : n < 16) :
    hexValue (hexDigits.getD n '0') = some n ∧ hexDigits.getD n '0' ≠ ';' ∧ hexDigits.getD n '0' ≠ ' ' := by
  decide +revert

theorem highDigit_lt (d : Byte) : d.toNat / 16 < 16 := by
  have hd : d.toNat < 256 := d.isLt
  omega

theorem lowDigit_lt (d : Byte) : d.toNat % 16 < 16 := Nat.mod_lt _ (by decide)

/-- The two digits of a byte read back as the byte. -/
theorem readOperand_operandText (d : Byte) : readOperand (operandText d) = some d := by
  obtain ⟨hhi, -⟩ := hexDigit_of_lt (highDigit_lt d)
  obtain ⟨hlo, -⟩ := hexDigit_of_lt (lowDigit_lt d)
  simp only [readOperand, operandText, hhi, hlo]
  rw [Nat.div_add_mod, BitVec.ofNat_toNat, BitVec.setWidth_eq]

theorem ne_sign_of_mem_operandText {d : Byte} {x : Char} (hx : x ∈ operandText d) : x ≠ ';' := by
  obtain ⟨-, hhi, -⟩ := hexDigit_of_lt (highDigit_lt d)
  obtain ⟨-, hlo, -⟩ := hexDigit_of_lt (lowDigit_lt d)
  simp only [operandText, List.mem_cons, List.not_mem_nil, or_false] at hx
  rcases hx with rfl | rfl | rfl | rfl | rfl
  · decide
  · decide
  · decide
  · exact hhi
  · exact hlo

theorem operandAfter_append (m : List Char) (d : Byte) : operandAfter m (m ++ operandText d) = some d := by
  have hpre : m.isPrefixOf (m ++ operandText d) = true := List.isPrefixOf_iff_prefix.mpr (List.prefix_append _ _)
  rw [operandAfter, if_pos hpre, List.drop_left, readOperand_operandText]

/-- Behind another mnemonic of the same length no operand is found. -/
theorem operandAfter_of_ne {m m' : List Char} (hlen : m'.length = m.length) (hne : m' ≠ m) (u : List Char) :
    operandAfter m' (m ++ u) = none := by
  refine if_neg fun hpre => hne ?_
  have hpre' : m' <+: m ++ u := List.isPrefixOf_iff_prefix.mp hpre
  exact (List.prefix_of_prefix_length_le hpre' (List.prefix_append m u) hlen.le).eq_of_length hlen

/-! ### The mnemonic -/

/-- A mnemonic holds neither the comment sign nor a blank. -/
theorem ne_of_mem_mnemonicText (i : Instr) : ∀ x ∈ mnemonicText i, x ≠ ';' ∧ x ≠ ' ' := by
  cases i <;> simp [mnemonicText]

/-- The mnemonic of an operand-less command is read as that command. -/
theorem readCommand_mnemonicText : ∀ i ∈ bareCommands, readCommand (mnemonicText i) = some i := by
  decide

/-- A text with an operand is no operand-less command: it holds a blank. -/
theorem find_bareCommands_of_operand (m : List Char) (d : Byte) :
    bareCommands.find? (fun i => mnemonicText i == m ++ operandText d) = none := by
  refine List.find?_eq_none.mpr fun i _ h => ?_
  have hblank : ' ' ∈ mnemonicText i := by
    rw [eq_of_beq h]
    exact List.mem_append_right m List.mem_cons_self
  exact (ne_of_mem_mnemonicText i ' ' hblank).2 rfl

/-- A mnemonic with an operand is read as that command with that operand: the three mnemonics that take one are of the
same length and differ. -/
theorem readCommand_append_operandText {mk : Byte → Instr} (hmk : mk ∈ operandCommands) (d : Byte) :
    readCommand (mnemonicText (mk 0) ++ operandText d) = some (mk d) := by
  simp only [readCommand, find_bareCommands_of_operand]
  simp only [operandCommands, List.mem_cons, List.not_mem_nil, or_false] at hmk
  have h32 : operandAfter (mnemonicText (.c16Upd 0)) (mnemonicText (.c32Upd 0) ++ operandText d) = none :=
    operandAfter_of_ne (by rfl) (by decide) _
  have hfs16 : operandAfter (mnemonicText (.c16Upd 0)) (mnemonicText (.fsPush 0) ++ operandText d) = none :=
    operandAfter_of_ne (by rfl) (by decide) _
  have hfs32 : operandAfter (mnemonicText (.c32Upd 0)) (mnemonicText (.fsPush 0) ++ operandText d) = none :=
    operandAfter_of_ne (by rfl) (by decide) _
  rcases hmk with rfl | rfl | rfl
  · simp only [operandCommands, List.findSome?_cons, operandAfter_append, Option.map_some]
  · simp only [operandCommands, List.findSome?_cons, h32, operandAfter_append, Option.map_none, Option.map_some]
  · simp only [operandCommands, List.findSome?_cons, hfs16, hfs32, operandAfter_append, Option.map_none,
      Option.map_some]

/-! ### The textual form of a command -/

/-- The textual form of a command is the mnemonic of an operand-less one, or a mnemonic with an operand. -/
theorem asmText_cases (i : Instr) :
    (i ∈ bareCommands ∧ asmText i = mnemonicText i) ∨
      ∃ mk ∈ operandCommands, ∃ d, i = mk d ∧ asmText i = mnemonicText (mk 0) ++ operandText d := by
  cases i with
  | c16Init | c16Get | c32Init | c32Get | fsClr | fsParse | fsLevel => exact .inl ⟨by decide, rfl⟩
  | c16Upd d => exact .inr ⟨.c16Upd, by simp [operandCommands], d, rfl, rfl⟩
  | c32Upd d => exact .inr ⟨.c32Upd, by simp [operandCommands], d, rfl, rfl⟩
  | fsPush d => exact .inr ⟨.fsPush, by simp [operandCommands], d, rfl, rfl⟩

theorem readCommand_asmText (i : Instr) : readCommand (asmText i) = some i := by
  rcases asmText_cases i with ⟨hi, e⟩ | ⟨mk, hmk, d, rfl, e⟩
  · rw [e, readCommand_mnemonicText i hi]
  · rw [e, readCommand_append_operandText hmk]

theorem ne_sign_of_mem_asmText {i : Instr} {x : Char} (hx : x ∈ asmText i) : x ≠ ';' := by
  rcases asmText_cases i with ⟨-, e⟩ | ⟨mk, -, d, -, e⟩ <;> rw [e] at hx
  · exact (ne_of_mem_mnemonicText i x hx).1
  · rcases List.mem_append.mp hx with hx | hx
    · exact (ne_of_mem_mnemonicText _ x hx).1
    · exact ne_sign_of_mem_operandText hx

theorem getLast_asmText_ne_blank (i : Instr) (hne : asmText i ≠ []) : (asmText i).getLast hne ≠ ' ' := by
  rcases asmText_cases i with ⟨-, e⟩ | ⟨mk, -, d, -, e⟩
  · simp only [e]
    exact (ne_of_mem_mnemonicText i _ (List.getLast_mem _)).2
  · obtain ⟨-, -, hlo⟩ := hexDigit_of_lt (lowDigit_lt d)
    simpa [e, operandText] using hlo

/-- Settles O8: the textual form is the text of its line (`lineText_of_clean`) and is read as its command. -/
theorem assemblyTextReadsBack : Obligations.AssemblyTextReadsBack := by
  intro i comment
  obtain ⟨hbare, hcomment⟩ :=
    lineText_of_clean (fun _ => ne_sign_of_mem_asmText) (getLast_asmText_ne_blank i) comment
  exact ⟨readLine_of_lineText hbare (readCommand_asmText i), readLine_of_lineText hcomment (readCommand_asmText i)⟩

end Sys2Proof.Machine
end

section
/-!
SUPPORT. The CRC16 commands (`40_crc16.md` R93 to R96): each command by its effect on the instance it serves, and a
list of commands as the fold of the byte step over the operands of its `C16.UPD`s.
-/
namespace Sys2Proof.Machine

open Sys2Proof

/-! ### One command -/

/-- Settles O17, with `exec_of_port`: the effect of `C16.INIT`. -/
theorem c16InitSetsTheInitialValue : Obligations.C16InitSetsTheInitialValue :=
  fun _ _ hp => exec_of_port .c16Init hp

/-- Settles O18, with `exec_of_port`: the effect of `C16.UPD`. -/
theorem c16UpdAbsorbsOneByte : Obligations.C16UpdAbsorbsOneByte :=
  fun _ _ d hp => exec_of_port (.c16Upd d) hp

/-- Settles O19, with `exec_of_port`: the effect of `C16.GET`. -/
theorem c16GetReturnsTheRegister : Obligations.C16GetReturnsTheRegister :=
  fun _ _ hp => exec_of_port .c16Get hp

/-! ### A list of commands -/

/-- A command's word does what the command does. -/
@[simp] theorem wordEffect_encode (cap : Nat) (i : Instr) : wordEffect cap (encode i) = effect cap i :=
  wordEffect_of_decode_cmd cap (decode_encode i)

/-- A list of commands issued on a channel that exists runs to its end; what it does to the port there. -/
theorem run_issue (is : List Instr) {s : State} {ch : Nat} {p : Port} (hp : s.ports[ch]? = some p) :
    ∃ t, core.run is.length (s.issue ch is) = .next t ∧
      t.ports[ch]? = some
        { inst := (wordsEffect s.cfg.bufCap (is.map encode) p.inst).1
          unread := p.unread ++ (wordsEffect s.cfg.bufCap (is.map encode) p.inst).2 } := by
  have hin : (s.issue ch is).inputs = (is.map encode).map (HostInput.command ch) ++ s.inputs := by
    simp [State.issue]
  obtain ⟨t, hrun, -, -, hports⟩ := run_words (is.map encode) (s.issue ch is) ch p s.inputs hp hin
  have hlt : ch < s.ports.length := (List.getElem?_eq_some_iff.mp hp).1
  refine ⟨t, by rwa [List.length_map] at hrun, ?_⟩
  rw [hports]
  exact List.getElem?_set_self hlt

/-- One command other than `C16.INIT` absorbs the operand it gives to the CRC16 unit, if it gives one (R94, R95). -/
theorem foldl_c16Operands_cons {i : Instr} (is : List Instr) (cap : Nat) (m : Inst) (h : i ≠ .c16Init) :
    (c16Operands (i :: is)).foldl crc16Step m.crc16 =
      (c16Operands is).foldl crc16Step (effect cap i m).1.crc16 := by
  cases i with
  | c16Init => exact absurd rfl h
  | c16Upd | c16Get => rfl
  | c32Init | c32Upd | c32Get | fsClr | fsPush | fsParse | fsLevel =>
    rw [effect_crc16 cap m (by simp [Instr.unit])]
    rfl

/-- The register after commands without a `C16.INIT`: their operands folded in, whatever stands between (R96). -/
theorem wordsEffect_crc16 {is : List Instr} (h : ∀ i ∈ is, i ≠ .c16Init) (cap : Nat) (m : Inst) :
    (wordsEffect cap (is.map encode) m).1.crc16 = (c16Operands is).foldl crc16Step m.crc16 := by
  induction is generalizing m with
  | nil => rfl
  | cons i is ih =>
    obtain ⟨hi, his⟩ := List.forall_mem_cons.mp h
    simp only [List.map_cons, wordsEffect, wordEffect_encode]
    rw [ih his, foldl_c16Operands_cons is cap m hi]

/-- Commands and then `C16.GET`: the last response is what the commands left in the register, and it stays there. -/
theorem run_issue_c16Get (is : List Instr) {s : State} {ch : Nat} {p : Port} {c : Word16}
    (hp : s.ports[ch]? = some p) (hc : (wordsEffect s.cfg.bufCap (is.map encode) p.inst).1.crc16 = c) :
    ∃ t q rs, core.run (is.length + 1) (s.issue ch (is ++ [.c16Get])) = .next t ∧ t.ports[ch]? = some q ∧
      q.inst.crc16 = c ∧ rs.length = is.length ∧ q.unread = p.unread ++ rs ++ [.val16 c] := by
  obtain ⟨t, hrun, hport⟩ := run_issue (is ++ [.c16Get]) hp
  rw [List.length_append] at hrun
  rw [List.map_append, wordsEffect_append] at hport
  refine ⟨t, _, (wordsEffect s.cfg.bufCap (is.map encode) p.inst).2, hrun, hport, hc, ?_, ?_⟩
  · rw [wordsEffect_length, List.length_map]
  · rw [List.append_assoc, ← hc]
    rfl

/-- Settles O23: `C16.INIT` and reset both leave the initial value, and `wordsEffect_crc16` folds the operands in. -/
theorem c16CommandsComputeTheChecksum : Obligations.C16CommandsComputeTheChecksum := by
  intro is his s ch p hp
  constructor
  · have hc : (wordsEffect s.cfg.bufCap ((Instr.c16Init :: is).map encode) p.inst).1.crc16 =
        crc16Xmodem (c16Operands is) := by
      simp only [List.map_cons, wordsEffect, wordEffect_encode]
      exact wordsEffect_crc16 his _ _
    exact run_issue_c16Get (.c16Init :: is) hp hc
  · intro hreset
    have hc : (wordsEffect s.cfg.bufCap (is.map encode) p.inst).1.crc16 = crc16Xmodem (c16Operands is) := by
      rw [hreset]
      exact wordsEffect_crc16 his _ _
    obtain ⟨t, q, rs, hrun, hport, -, hlen, hunread⟩ := run_issue_c16Get is hp hc
    exact ⟨t, q, rs, hrun, hport, hlen, hunread⟩

end Sys2Proof.Machine
end

section
/-!
SUPPORT. The CRC16 function (`40_crc16.md` R91, R97 to R99): the bit step in numbers, what the byte step does to one
register and to one byte, the linearity of the checksum, and the worked values.
-/
namespace Sys2Proof.Machine

open Sys2Proof

/-! ### The bit step and the byte step in numbers -/

theorem getLsbD_fifteen (c : Word16) : c.getLsbD 15 = decide (2 ^ 15 ≤ c.toNat) := by
  rw [← BitVec.msb_eq_getLsbD_last c, BitVec.msb_eq_decide]

theorem toNat_shiftLeft_one (c : Word16) : (c <<< 1).toNat = 2 * c.toNat % 2 ^ 16 := by
  rw [BitVec.toNat_shiftLeft, Nat.shiftLeft_eq, pow_one, Nat.mul_comm]

/-- One iteration of R91's loop on the number that the register holds. -/
def crc16BitNat (n : Nat) : Nat :=
  if 2 ^ 15 ≤ n then (2 * n % 2 ^ 16) ^^^ 0x1021 else 2 * n % 2 ^ 16

theorem crc16BitNat_of_lt {n : Nat} (h : n < 2 ^ 15) : crc16BitNat n = 2 * n := by
  rw [crc16BitNat, if_neg (Nat.not_le_of_lt h), Nat.mod_eq_of_lt (by omega)]

theorem toNat_crc16Bit (c : Word16) : (crc16Bit c).toNat = crc16BitNat c.toNat := by
  unfold crc16Bit crc16BitNat
  rw [getLsbD_fifteen]
  by_cases h : 2 ^ 15 ≤ c.toNat
  · rw [if_pos (decide_eq_true h), if_pos h, BitVec.toNat_xor, toNat_shiftLeft_one]
    rfl
  · rw [if_neg (by simpa using h), if_neg h, toNat_shiftLeft_one]

theorem toNat_crc16Bit_iterate (n : Nat) (c : Word16) : (crc16Bit^[n] c).toNat = crc16BitNat^[n] c.toNat := by
  have hsemi : Function.Semiconj BitVec.toNat crc16Bit crc16BitNat := toNat_crc16Bit
  exact hsemi.iterate_right n c

theorem toNat_byteAtTop16 (b : Byte) : (byteAtTop16 b).toNat = b.toNat * 2 ^ 8 := by
  have hb : b.toNat < 256 := b.isLt
  simp only [byteAtTop16, BitVec.truncate_eq_setWidth, BitVec.toNat_shiftLeft, BitVec.toNat_setWidth, Nat.shiftLeft_eq]
  omega

/-- The byte's bit `i` stands at bit `8 + i`, and the low byte is zero. -/
theorem getLsbD_byteAtTop16 (b : Byte) (i : Nat) :
    (byteAtTop16 b).getLsbD i = (decide (8 ≤ i) && b.getLsbD (i - 8)) := by
  simp only [byteAtTop16, BitVec.truncate_eq_setWidth, BitVec.getLsbD_shiftLeft, BitVec.getLsbD_setWidth]
  by_cases h : i < 8
  · simp [h, Nat.not_le_of_lt h]
  · by_cases h16 : i < 16
    · simp [h, h16, Nat.le_of_not_lt h, show i - 8 < 16 by omega]
    · simp [h16, show 8 ≤ i - 8 by omega]

/-- Settles O22: the bit step's iterates in numbers, from the register with the byte at its top in numbers. -/
theorem crc16StepIsTheShiftLoop : Obligations.Crc16StepIsTheShiftLoop := by
  intro c b
  calc (crc16Step c b).toNat
      = crc16BitNat^[8] (c ^^^ byteAtTop16 b).toNat := toNat_crc16Bit_iterate 8 _
    _ = crc16BitNat^[8] (c.toNat ^^^ (b.toNat * 2 ^ 8)) := by rw [BitVec.toNat_xor, toNat_byteAtTop16]

/-! ### A flipped bit -/

theorem byteAtTop16_injective {a b : Byte} (h : byteAtTop16 a = byteAtTop16 b) : a = b := by
  have hnat := congrArg BitVec.toNat h
  rw [toNat_byteAtTop16, toNat_byteAtTop16] at hnat
  exact BitVec.eq_of_toNat_eq (Nat.eq_of_mul_eq_mul_right (by decide) hnat)

/-- Different bytes into the same register never give the same value. -/
theorem crc16Step_right_injective {c : Word16} {a b : Byte} (h : crc16Step c a = crc16Step c b) : a = b := by
  have hdiff : crc16Step (c ^^^ c) (a ^^^ b) = 0 := by rw [crc16Step_xor, h, BitVec.xor_self]; rfl
  have hzero := eq_zero_of_crc16Bit_iterate hdiff
  rw [BitVec.xor_self, BitVec.zero_xor] at hzero
  exact BitVec.xor_eq_zero_iff.mp (byteAtTop16_injective hzero)

/-- The same bytes into different registers never give the same value. -/
theorem foldl_crc16Step_injective {s : List Byte} {c d : Word16} (h : s.foldl crc16Step c = s.foldl crc16Step d) :
    c = d := by
  induction s generalizing c d with
  | nil => exact h
  | cons b s ih => exact crc16Step_left_injective (ih h)

theorem xor_bit_ne (b : Byte) {k : Nat} (hk : k < 8) : b ^^^ (1#8 <<< k) ≠ b := by
  intro h
  have hbit := congrArg (BitVec.getLsbD · k) h
  simp [hk] at hbit

/-- Up to the flipped byte the registers agree; that byte makes them differ, and no later byte undoes it. -/
theorem foldl_crc16Step_flipBit_ne {s : List Byte} {n k : Nat} (hn : n < s.length) (hk : k < 8) (c : Word16) :
    (flipBit s n k).foldl crc16Step c ≠ s.foldl crc16Step c := by
  induction s generalizing n c with
  | nil => exact absurd hn (Nat.not_lt_zero n)
  | cons b s ih =>
    cases n with
    | zero => exact fun h => xor_bit_ne b hk (crc16Step_right_injective (foldl_crc16Step_injective h))
    | succ n => exact ih (Nat.lt_of_succ_lt_succ hn) (crc16Step c b)

/-- Settles O24, with `foldl_crc16Step_flipBit_ne` from the initial value. -/
theorem singleBitFlipChangesCrc16 : Obligations.SingleBitFlipChangesCrc16 :=
  ⟨rfl, fun _ _ _ hn hk => foldl_crc16Step_flipBit_ne hn hk Config.init16⟩

/-! ### The initial value zero -/

theorem crc16Bit_iterate_zero (n : Nat) : crc16Bit^[n] 0 = 0 :=
  Function.iterate_fixed rfl n

theorem crc16Step_zero : crc16Step 0 0 = 0 := crc16Bit_iterate_zero 8

/-- A leading zero byte leaves the initial value (R98 a). -/
theorem crc16Xmodem_zero_cons (s : List Byte) : crc16Xmodem (0x00 :: s) = crc16Xmodem s :=
  congrArg (fun c => s.foldl crc16Step c) crc16Step_zero

theorem crc16Xmodem_replicate_zero (n : Nat) : crc16Xmodem (List.replicate n 0x00) = 0x0000 := by
  induction n with
  | zero => rfl
  | succ n ih => rw [List.replicate_succ, crc16Xmodem_zero_cons, ih]

/-- The fold over the byte steps is linear (R98 b). -/
theorem foldl_crc16Step_xorBytes {s t : List Byte} (h : s.length = t.length) (c d : Word16) :
    (xorBytes s t).foldl crc16Step (c ^^^ d) = s.foldl crc16Step c ^^^ t.foldl crc16Step d := by
  induction s generalizing t c d with
  | nil =>
    rw [List.eq_nil_of_length_eq_zero h.symm]
    rfl
  | cons a s ih =>
    cases t with
    | nil => cases h
    | cons b t =>
      rw [List.foldl_cons, List.foldl_cons, ← ih (Nat.succ.inj h), ← crc16Step_xor]
      rfl

theorem crc16Xmodem_xorBytes {s t : List Byte} (h : s.length = t.length) :
    crc16Xmodem (xorBytes s t) = crc16Xmodem s ^^^ crc16Xmodem t :=
  foldl_crc16Step_xorBytes h Config.init16 Config.init16

/-! ### The residue -/

/-- A register below `2 ^ (16 - n)` is only shifted by `n` bit steps: bit 15 is never set. -/
theorem toNat_crc16Bit_iterate_of_lt {n : Nat} {c : Word16} (h : c.toNat * 2 ^ n < 2 ^ 16) :
    (crc16Bit^[n] c).toNat = c.toNat * 2 ^ n := by
  induction n generalizing c with
  | zero => exact (Nat.mul_one _).symm
  | succ n ih =>
    have hle : c.toNat * 2 ≤ c.toNat * 2 ^ (n + 1) := Nat.mul_le_mul_left _ (Nat.le_self_pow n.succ_ne_zero 2)
    have hbit : (crc16Bit c).toNat = 2 * c.toNat := by
      rw [toNat_crc16Bit, crc16BitNat_of_lt (by omega)]
    have hmul : (crc16Bit c).toNat * 2 ^ n = c.toNat * 2 ^ (n + 1) := by
      rw [hbit]
      ring
    rw [Function.iterate_succ_apply, ih (hmul ▸ h), hmul]

/-- The register's own high byte cancels its top; the low byte is left. -/
theorem xor_byteAtTop16_high (v : Word16) :
    v ^^^ byteAtTop16 (v.extractLsb' 8 8) = (v.extractLsb' 0 8).zeroExtend 16 := by
  apply BitVec.eq_of_getLsbD_eq
  intro k hk
  rw [BitVec.getLsbD_xor, getLsbD_byteAtTop16]
  by_cases h : k < 8
  · simp [h, hk, Nat.not_le_of_lt h]
  · have hle : 8 ≤ k := Nat.le_of_not_lt h
    simp [hk, hle, show k - 8 < 8 by omega]

/-- The register's own high byte moves the low byte to the top. -/
theorem crc16Step_high (v : Word16) : crc16Step v (v.extractLsb' 8 8) = byteAtTop16 (v.extractLsb' 0 8) := by
  generalize hlo : v.extractLsb' 0 8 = lo
  have hlt : lo.toNat < 256 := lo.isLt
  have hnat : (lo.zeroExtend 16).toNat = lo.toNat := BitVec.toNat_setWidth_of_le (by decide)
  rw [crc16Step, xor_byteAtTop16_high, hlo]
  apply BitVec.eq_of_toNat_eq
  rw [toNat_crc16Bit_iterate_of_lt (by omega), hnat, toNat_byteAtTop16]

theorem crc16Step_byteAtTop16_self (b : Byte) : crc16Step (byteAtTop16 b) b = 0 := by
  rw [crc16Step, BitVec.xor_self]
  exact crc16Bit_iterate_zero 8

/-- The checksum appended high byte first: its first byte moves the other to the top, the second cancels it (R98 c). -/
theorem crc16Xmodem_append_checksum (s : List Byte) :
    crc16Xmodem (s ++ [(crc16Xmodem s).extractLsb' 8 8, (crc16Xmodem s).extractLsb' 0 8]) = 0x0000 := by
  generalize hv : crc16Xmodem s = v
  calc crc16Xmodem (s ++ [v.extractLsb' 8 8, v.extractLsb' 0 8])
      = crc16Step (crc16Step (crc16Xmodem s) (v.extractLsb' 8 8)) (v.extractLsb' 0 8) := List.foldl_append
    _ = 0x0000 := by rw [hv, crc16Step_high, crc16Step_byteAtTop16_self]

/-- Settles O25: leading zeros, linearity and the residue, and the query payload with its checksum in either order. -/
theorem crc16ZeroInitialValueConsequences : Obligations.Crc16ZeroInitialValueConsequences :=
  ⟨crc16Xmodem_zero_cons, crc16Xmodem_replicate_zero, fun _ _ => crc16Xmodem_xorBytes, crc16Xmodem_append_checksum,
    by decide +kernel, by decide +kernel⟩

/-! ### The worked values -/

/-- Settles O21: each value of R99 is what the model computes. -/
theorem crc16WorkedValues : Obligations.Crc16WorkedValues := by
  refine ⟨?_, ?_, ?_, ?_, ?_, ?_⟩
  all_goals decide +kernel

end Sys2Proof.Machine
end

section
/-!
SUPPORT. The CRC16 checksum as a polynomial over GF(2) (`40_crc16.md` R100): a bit step multiplies the register's
polynomial by `x` modulo the generator.
-/
namespace Sys2Proof.Machine

open Sys2Proof Polynomial

/-- The polynomial over GF(2) of a word's bits: bit `i` is the coefficient of `x^i` (R100). -/
noncomputable def bitPoly {w : Nat} (c : BitVec w) : (ZMod 2)[X] :=
  ∑ i ∈ Finset.range w, if c.getLsbD i then X ^ i else 0

/-- The generator `G(x)` of R100. -/
noncomputable def generator16 : (ZMod 2)[X] := X ^ 16 + X ^ 12 + X ^ 5 + 1

theorem bitPoly_xor {w : Nat} (a b : BitVec w) : bitPoly (a ^^^ b) = bitPoly a + bitPoly b := by
  unfold bitPoly
  rw [← Finset.sum_add_distrib]
  refine Finset.sum_congr rfl fun i _ => ?_
  rw [BitVec.getLsbD_xor]
  cases a.getLsbD i <;> cases b.getLsbD i <;> simp [CharTwo.add_self_eq_zero]

/-- `0x1021` is the generator without its `x^16` term (R100). -/
theorem bitPoly_poly16 : X ^ 16 + bitPoly Config.poly16 = generator16 := by
  simp [bitPoly, generator16, Config.poly16, Finset.sum_range_succ]
  ring

/-- A shift by one multiplies by `x`, and the bit shifted out is the coefficient of `x^w`. -/
theorem bitPoly_shiftLeft_one {w : Nat} (c : BitVec (w + 1)) :
    bitPoly (c <<< 1) + (if c.getLsbD w then X ^ (w + 1) else 0) = bitPoly c * X := by
  have hbit : ∀ i ∈ Finset.range w, (if (c <<< 1).getLsbD (i + 1) then (X : (ZMod 2)[X]) ^ (i + 1) else 0) =
      (if c.getLsbD i then X ^ i else 0) * X := by
    intro i hi
    have hlt : i + 1 < w + 1 := Nat.succ_lt_succ (Finset.mem_range.mp hi)
    rw [BitVec.getLsbD_shiftLeft, ite_mul, zero_mul, ← pow_succ]
    simp [hlt]
  unfold bitPoly
  rw [Finset.sum_range_succ', Finset.sum_congr rfl hbit, Finset.sum_range_succ, add_mul, Finset.sum_mul]
  simp [pow_succ]

theorem bitPoly_crc16Bit (c : Word16) :
    bitPoly (crc16Bit c) = bitPoly c * X + (if c.getLsbD 15 then generator16 else 0) := by
  rw [← bitPoly_shiftLeft_one c, crc16Bit]
  split
  · rw [bitPoly_xor, ← bitPoly_poly16, add_assoc, ← add_assoc (X ^ 16), CharTwo.add_self_eq_zero, zero_add]
  · simp

/-- The byte at the top of the register is multiplied by `x^8`. -/
theorem bitPoly_byteAtTop16 (b : Byte) : bitPoly (byteAtTop16 b) = bitPoly b * X ^ 8 := by
  have hlow : ∀ i ∈ Finset.range 8, (if (byteAtTop16 b).getLsbD i then (X : (ZMod 2)[X]) ^ i else 0) = 0 := by
    intro i hi
    simp [getLsbD_byteAtTop16, Nat.not_le_of_lt (Finset.mem_range.mp hi)]
  unfold bitPoly
  rw [Finset.sum_range_add _ 8 8, Finset.sum_eq_zero hlow, zero_add, Finset.sum_mul]
  simp [getLsbD_byteAtTop16, pow_add, mul_comm]

/-- A polynomial modulo the generator. -/
noncomputable abbrev residue16 : (ZMod 2)[X] →+* AdjoinRoot generator16 := AdjoinRoot.mk generator16

/-- `n` bit steps multiply the register's polynomial by `x^n` modulo the generator. -/
theorem residue16_crc16Bit_iterate (n : Nat) (c : Word16) :
    residue16 (bitPoly (crc16Bit^[n] c)) = residue16 (bitPoly c * X ^ n) := by
  induction n generalizing c with
  | zero => simp
  | succ n ih =>
    rw [Function.iterate_succ_apply, ih, bitPoly_crc16Bit, add_mul, map_add]
    have hgen : residue16 ((if c.getLsbD 15 then generator16 else 0) * X ^ n) = 0 := by
      split <;> simp
    rw [hgen, add_zero, pow_succ', mul_assoc]

/-- The byte step takes in the byte's polynomial behind the register's and multiplies both by `x^8` (R91). -/
theorem residue16_crc16Step (c : Word16) (b : Byte) :
    residue16 (bitPoly (crc16Step c b)) = residue16 ((bitPoly c + bitPoly b * X ^ 8) * X ^ 8) := by
  rw [crc16Step, residue16_crc16Bit_iterate, bitPoly_xor, bitPoly_byteAtTop16]

/-- The polynomial of a message behind `m`: first byte first, bit 7 first (R100). -/
noncomputable def messagePoly (m : (ZMod 2)[X]) (s : List Byte) : (ZMod 2)[X] :=
  s.foldl (fun m b => m * X ^ 8 + bitPoly b) m

theorem residue16_foldl_crc16Step (s : List Byte) {m : (ZMod 2)[X]} {c : Word16}
    (h : residue16 (m * X ^ 16) = residue16 (bitPoly c)) :
    residue16 (messagePoly m s * X ^ 16) = residue16 (bitPoly (s.foldl crc16Step c)) := by
  induction s generalizing m c with
  | nil => exact h
  | cons b s ih =>
    refine ih ?_
    calc residue16 ((m * X ^ 8 + bitPoly b) * X ^ 16)
        = residue16 (m * X ^ 16) * residue16 (X ^ 8) + residue16 (bitPoly b * X ^ 16) := by
          rw [← map_mul, ← map_add]
          congr 1
          ring
      _ = residue16 ((bitPoly c + bitPoly b * X ^ 8) * X ^ 8) := by
          rw [h, ← map_mul, ← map_add]
          congr 1
          ring
      _ = residue16 (bitPoly (crc16Step c b)) := (residue16_crc16Step c b).symm

/-- Settles O26: the message times `x^16` and the checksum are the same modulo the generator. -/
theorem crc16IsThePolynomialRemainder : Obligations.Crc16IsThePolynomialRemainder := by
  intro s
  have hzero : residue16 (0 * X ^ 16) = residue16 (bitPoly Config.init16) := by
    simp [bitPoly]
  have hmod : residue16 (messagePoly 0 s * X ^ 16) = residue16 (bitPoly (crc16Xmodem s)) :=
    residue16_foldl_crc16Step s hzero
  obtain ⟨quotient, hq⟩ := AdjoinRoot.mk_eq_mk.mp hmod
  refine ⟨quotient, ?_⟩
  calc messagePoly 0 s * X ^ 16
      = generator16 * quotient + bitPoly (crc16Xmodem s) := sub_eq_iff_eq_add.mp hq
    _ = quotient * generator16 + bitPoly (crc16Xmodem s) := by rw [mul_comm]

end Sys2Proof.Machine
end

section
/-!
SUPPORT. The CRC32 commands (`41_crc32.md` R113 to R116): each command by its effect on the instance it serves, and a
list of commands as the fold of the byte step over the operands of its `C32.UPD`s.
-/
namespace Sys2Proof.Machine

open Sys2Proof

/-! ### One command -/

/-- Settles O27, with `exec_of_port`: the effect of `C32.INIT`. -/
theorem c32InitSetsTheInitialValue : Obligations.C32InitSetsTheInitialValue :=
  fun _ _ hp => exec_of_port .c32Init hp

/-- Settles O28, with `exec_of_port`: the effect of `C32.UPD`. -/
theorem c32UpdAbsorbsOneByte : Obligations.C32UpdAbsorbsOneByte :=
  fun _ _ d hp => exec_of_port (.c32Upd d) hp

/-- Settles O29, with `exec_of_port`: the effect of `C32.GET`. -/
theorem c32GetReturnsTheComplement : Obligations.C32GetReturnsTheComplement :=
  fun _ _ hp => exec_of_port .c32Get hp

/-! ### A list of commands -/

/-- Commands and then one more: its effect on what the others left, and its response behind theirs. -/
theorem run_issue_concat (is : List Instr) (i : Instr) {s : State} {ch : Nat} {p : Port} {m : Inst}
    (hp : s.ports[ch]? = some p) (hm : (wordsEffect s.cfg.bufCap (is.map encode) p.inst).1 = m) :
    ∃ t q rs, core.run (is.length + 1) (s.issue ch (is ++ [i])) = .next t ∧ t.ports[ch]? = some q ∧
      q.inst = (effect s.cfg.bufCap i m).1 ∧ rs.length = is.length ∧
      q.unread = p.unread ++ rs ++ [(effect s.cfg.bufCap i m).2] := by
  obtain ⟨t, hrun, hport⟩ := run_issue (is ++ [i]) hp
  rw [List.length_append] at hrun
  simp only [List.map_append, List.map_cons, List.map_nil, wordsEffect_append, hm, wordsEffect, wordEffect_encode]
    at hport
  refine ⟨t, _, (wordsEffect s.cfg.bufCap (is.map encode) p.inst).2, hrun, hport, rfl, ?_, ?_⟩
  · rw [wordsEffect_length, List.length_map]
  · rw [List.append_assoc]

/-- One command other than `C32.INIT` absorbs the operand it gives to the CRC32 unit, if it gives one (R114, R115). -/
theorem foldl_c32Operands_cons {i : Instr} (is : List Instr) (cap : Nat) (m : Inst) (h : i ≠ .c32Init) :
    (c32Operands (i :: is)).foldl crc32Step m.crc32 =
      (c32Operands is).foldl crc32Step (effect cap i m).1.crc32 := by
  cases i with
  | c32Init => exact absurd rfl h
  | c32Upd | c32Get => rfl
  | c16Init | c16Upd | c16Get | fsClr | fsPush | fsParse | fsLevel =>
    rw [effect_crc32 cap m (by simp [Instr.unit])]
    rfl

/-- The register after commands without a `C32.INIT`: their operands folded in, whatever stands between (R116). -/
theorem wordsEffect_crc32 {is : List Instr} (h : ∀ i ∈ is, i ≠ .c32Init) (cap : Nat) (m : Inst) :
    (wordsEffect cap (is.map encode) m).1.crc32 = (c32Operands is).foldl crc32Step m.crc32 := by
  induction is generalizing m with
  | nil => rfl
  | cons i is ih =>
    obtain ⟨hi, his⟩ := List.forall_mem_cons.mp h
    simp only [List.map_cons, wordsEffect, wordEffect_encode]
    rw [ih his, foldl_c32Operands_cons is cap m hi]

/-- Commands and then `C32.GET`: the last response is the complement of what they left in the register (R115). -/
theorem run_issue_c32Get (is : List Instr) {s : State} {ch : Nat} {p : Port} {bytes : List Byte}
    (hp : s.ports[ch]? = some p)
    (hc : (wordsEffect s.cfg.bufCap (is.map encode) p.inst).1.crc32 = bytes.foldl crc32Step Config.init32) :
    ∃ t q rs, core.run (is.length + 1) (s.issue ch (is ++ [.c32Get])) = .next t ∧ t.ports[ch]? = some q ∧
      q.inst.crc32 ^^^ Config.xorOut32 = crc32 bytes ∧ rs.length = is.length ∧
      q.unread = p.unread ++ rs ++ [.val32 (crc32 bytes)] := by
  obtain ⟨t, q, rs, hrun, hport, hinst, hlen, hunread⟩ := run_issue_concat is .c32Get hp rfl
  have hreg : q.inst.crc32 = bytes.foldl crc32Step Config.init32 := by rw [hinst, ← hc]; rfl
  refine ⟨t, q, rs, hrun, hport, by rw [hreg, crc32], hlen, ?_⟩
  rw [hunread, crc32, ← hc]
  rfl

/-- Settles O33: `C32.INIT` and reset both leave the initial value, and `wordsEffect_crc32` folds the operands in. -/
theorem c32CommandsComputeTheChecksum : Obligations.C32CommandsComputeTheChecksum := by
  intro is his s ch p hp
  constructor
  · have hc : (wordsEffect s.cfg.bufCap ((Instr.c32Init :: is).map encode) p.inst).1.crc32 =
        (c32Operands is).foldl crc32Step Config.init32 := by
      simp only [List.map_cons, wordsEffect, wordEffect_encode]
      exact wordsEffect_crc32 his _ _
    exact run_issue_c32Get (.c32Init :: is) hp hc
  · intro hreset
    have hc : (wordsEffect s.cfg.bufCap (is.map encode) p.inst).1.crc32 =
        (c32Operands is).foldl crc32Step Config.init32 := by
      rw [hreset]
      exact wordsEffect_crc32 his _ _
    obtain ⟨t, q, rs, hrun, hport, -, hlen, hunread⟩ := run_issue_c32Get is hp hc
    exact ⟨t, q, rs, hrun, hport, hlen, hunread⟩

end Sys2Proof.Machine
end

section
/-!
SUPPORT. The CRC32 function (`41_crc32.md` R111, R117 to R120): the bit step in numbers, the residue of a message
followed by its checksum, a flipped bit, and the worked values.
-/
namespace Sys2Proof.Machine

open Sys2Proof

/-! ### The bit step in numbers -/

/-- One iteration of R111's loop on the number that the register holds. -/
def crc32BitNat (n : Nat) : Nat :=
  if n % 2 = 1 then (n / 2) ^^^ 0xEDB88320 else n / 2

theorem getLsbD_zero_eq_decide (c : Word32) : c.getLsbD 0 = decide (c.toNat % 2 = 1) :=
  Nat.testBit_zero c.toNat

theorem toNat_ushiftRight_one (c : Word32) : (c >>> 1).toNat = c.toNat / 2 := by
  rw [BitVec.toNat_ushiftRight, Nat.shiftRight_eq_div_pow, pow_one]

theorem toNat_crc32Bit (c : Word32) : (crc32Bit c).toNat = crc32BitNat c.toNat := by
  unfold crc32Bit crc32BitNat
  rw [getLsbD_zero_eq_decide]
  by_cases h : c.toNat % 2 = 1
  · rw [if_pos (decide_eq_true h), if_pos h, BitVec.toNat_xor, toNat_ushiftRight_one]
    rfl
  · rw [if_neg (by simpa using h), if_neg h, toNat_ushiftRight_one]

theorem toNat_crc32Bit_iterate (n : Nat) (c : Word32) : (crc32Bit^[n] c).toNat = crc32BitNat^[n] c.toNat := by
  have hsemi : Function.Semiconj BitVec.toNat crc32Bit crc32BitNat := toNat_crc32Bit
  exact hsemi.iterate_right n c

theorem toNat_byteAtBottom32 (b : Byte) : (byteAtBottom32 b).toNat = b.toNat :=
  BitVec.toNat_setWidth_of_le (by decide)

/-- Settles O32: the bit step's iterates in numbers, from the register with the byte at its bottom in numbers. -/
theorem crc32StepIsTheShiftLoop : Obligations.Crc32StepIsTheShiftLoop := by
  intro c b
  calc (crc32Step c b).toNat
      = crc32BitNat^[8] (c ^^^ byteAtBottom32 b).toNat := toNat_crc32Bit_iterate 8 _
    _ = crc32BitNat^[8] (c.toNat ^^^ b.toNat) := by rw [BitVec.toNat_xor, toNat_byteAtBottom32]

/-! ### The residue -/

/-- Bit steps over zero bits only shift: the polynomial never enters. -/
theorem crc32BitNat_iterate_mul_pow (n k : Nat) : crc32BitNat^[n] (k * 2 ^ n) = k := by
  induction n with
  | zero => exact Nat.mul_one k
  | succ n ih =>
    have hbit : crc32BitNat (k * 2 ^ (n + 1)) = k * 2 ^ n := by
      rw [pow_succ, ← Nat.mul_assoc, crc32BitNat, if_neg (by omega), Nat.mul_div_cancel _ (by decide)]
    rw [Function.iterate_succ_apply, hbit, ih]

/-- The register's own low byte cancels its bottom. -/
theorem xor_byteAtBottom32_low (v : Word32) : v ^^^ byteAtBottom32 (v.extractLsb' 0 8) = v >>> 8 <<< 8 := by
  apply BitVec.eq_of_getLsbD_eq
  intro k hk
  by_cases h : k < 8
  · simp [byteAtBottom32, h, hk]
  · simp [byteAtBottom32, h, hk, Nat.add_sub_cancel' (Nat.le_of_not_lt h)]

/-- Absorbing the register's own low byte shifts it out. -/
theorem crc32Step_low (v : Word32) : crc32Step v (v.extractLsb' 0 8) = v >>> 8 := by
  have hlt : v.toNat < 2 ^ 32 := v.isLt
  have hnat : (v >>> 8 <<< 8).toNat = (v >>> 8).toNat * 2 ^ 8 := by
    simp only [BitVec.toNat_shiftLeft, BitVec.toNat_ushiftRight, Nat.shiftLeft_eq, Nat.shiftRight_eq_div_pow]
    omega
  apply BitVec.eq_of_toNat_eq
  rw [crc32Step, xor_byteAtBottom32_low, toNat_crc32Bit_iterate, hnat, crc32BitNat_iterate_mul_pow]

theorem crc32Step_ushiftRight (v : Word32) (n : Nat) : crc32Step (v >>> n) (v.extractLsb' n 8) = v >>> (n + 8) := by
  have hbyte : v.extractLsb' n 8 = (v >>> n).extractLsb' 0 8 := by
    apply BitVec.eq_of_getLsbD_eq
    intro k hk
    simp
  rw [hbyte, crc32Step_low, BitVec.shiftRight_add]

/-- Absorbing the register's own four bytes low byte first shifts them all out. -/
theorem foldl_crc32Step_u32LE_self (v : Word32) : (u32LE v).foldl crc32Step v = 0#32 := by
  simp only [u32LE, List.foldl_cons, List.foldl_nil]
  rw [crc32Step_low, crc32Step_ushiftRight, crc32Step_ushiftRight, crc32Step_ushiftRight]
  exact BitVec.ushiftRight_eq_zero (by decide)

/-- A difference of the registers goes through as it would over zero bytes: the bytes do not change it. -/
theorem foldl_crc32Step_xor (s : List Byte) (c d : Word32) :
    s.foldl crc32Step (c ^^^ d) = s.foldl crc32Step c ^^^ (List.replicate s.length 0#8).foldl crc32Step d := by
  induction s generalizing c d with
  | nil => rfl
  | cons b s ih =>
    have hstep : crc32Step (c ^^^ d) b = crc32Step c b ^^^ crc32Step d 0#8 := by
      rw [← crc32Step_xor, BitVec.xor_zero]
    rw [List.length_cons, List.replicate_succ, List.foldl_cons, List.foldl_cons, List.foldl_cons, hstep, ih]

/-- The register is the checksum complemented: the checksum's own bytes leave nothing of it, the complement alone is
left (R119). -/
theorem foldl_crc32Step_append_checksum (s : List Byte) :
    (s ++ u32LE (crc32 s)).foldl crc32Step Config.init32 = 0xDEBB20E3 := by
  have hreg : s.foldl crc32Step Config.init32 = crc32 s ^^^ Config.xorOut32 := by
    rw [crc32, BitVec.xor_assoc, BitVec.xor_self, BitVec.xor_zero]
  have hzeros : (List.replicate 4 0#8).foldl crc32Step Config.xorOut32 = 0xDEBB20E3 := by decide +kernel
  calc (s ++ u32LE (crc32 s)).foldl crc32Step Config.init32
      = (u32LE (crc32 s)).foldl crc32Step (crc32 s ^^^ Config.xorOut32) := by rw [List.foldl_append, hreg]
    _ = (u32LE (crc32 s)).foldl crc32Step (crc32 s) ^^^ (List.replicate 4 0#8).foldl crc32Step Config.xorOut32 :=
        foldl_crc32Step_xor _ _ _
    _ = 0xDEBB20E3 := by rw [foldl_crc32Step_u32LE_self, hzeros, BitVec.zero_xor]

/-- Settles O34: the register by `foldl_crc32Step_append_checksum`, the checksum as its complement. -/
theorem crc32ResidueIsConstant : Obligations.Crc32ResidueIsConstant := by
  refine fun s => ⟨foldl_crc32Step_append_checksum s, ?_⟩
  rw [crc32, foldl_crc32Step_append_checksum]
  decide

/-! ### A flipped bit -/

theorem byteAtBottom32_injective {a b : Byte} (h : byteAtBottom32 a = byteAtBottom32 b) : a = b := by
  have hnat := congrArg BitVec.toNat h
  rw [toNat_byteAtBottom32, toNat_byteAtBottom32] at hnat
  exact BitVec.eq_of_toNat_eq hnat

/-- Different bytes into the same register never give the same value. -/
theorem crc32Step_right_injective {c : Word32} {a b : Byte} (h : crc32Step c a = crc32Step c b) : a = b := by
  have hdiff : crc32Step (c ^^^ c) (a ^^^ b) = 0 := by rw [crc32Step_xor, h, BitVec.xor_self]; rfl
  have hzero := eq_zero_of_crc32Bit_iterate hdiff
  rw [BitVec.xor_self, BitVec.zero_xor] at hzero
  exact BitVec.xor_eq_zero_iff.mp (byteAtBottom32_injective hzero)

/-- The same bytes into different registers never give the same value, for any byte step that is injective in the
register. -/
theorem foldl_left_injective {R : Type} {f : R → Byte → R} (hleft : ∀ c d b, f c b = f d b → c = d) {s : List Byte}
    {c d : R} (h : s.foldl f c = s.foldl f d) : c = d := by
  induction s generalizing c d with
  | nil => exact h
  | cons b s ih => exact hleft c d b (ih h)

/-- For any byte step that is injective in the register and in the byte: up to the flipped byte the registers agree;
that byte makes them differ, and no later byte undoes it. -/
theorem foldl_flipBit_ne {R : Type} {f : R → Byte → R} (hleft : ∀ c d b, f c b = f d b → c = d)
    (hright : ∀ c a b, f c a = f c b → a = b) {s : List Byte} {n k : Nat} (hn : n < s.length) (hk : k < 8) (c : R) :
    (flipBit s n k).foldl f c ≠ s.foldl f c := by
  induction s generalizing n c with
  | nil => exact absurd hn (Nat.not_lt_zero n)
  | cons b s ih =>
    cases n with
    | zero => exact fun h => xor_bit_ne b hk (hright c _ b (foldl_left_injective hleft h))
    | succ n => exact ih (Nat.lt_of_succ_lt_succ hn) (f c b)

/-- Settles O35: the registers differ by `foldl_flipBit_ne`, and so do their complements. -/
theorem singleBitFlipChangesCrc32 : Obligations.SingleBitFlipChangesCrc32 := by
  intro s n k hn hk h
  have hreg : (flipBit s n k).foldl crc32Step Config.init32 = s.foldl crc32Step Config.init32 :=
    (BitVec.xor_left_inj Config.xorOut32).mp h
  exact foldl_flipBit_ne (f := crc32Step) (fun _ _ _ => crc32Step_left_injective)
    (fun _ _ _ => crc32Step_right_injective) hn hk Config.init32 hreg

/-! ### The worked values -/

/-- Settles O31: each value of R117 and R118 is what the model computes. -/
theorem crc32WorkedValues : Obligations.Crc32WorkedValues := by
  refine ⟨?_, ?_, ?_, ?_, ?_, ?_, ?_, ?_⟩
  all_goals decide +kernel

end Sys2Proof.Machine
end

section
/-!
SUPPORT. FS.PARSE (`42_frame_sync.md` R131 to R136, R140 to R146): what it does where no header stands and where one
does, that it comes to rest, and that what it emits is a frame as it stood in the buffer.
-/
namespace Sys2Proof.Machine

open Sys2Proof

/-! ### The hunt -/

theorem findHeader_eq_none_iff {l : List Byte} : findHeader l = none ↔ NoHeader l := by
  refine ⟨fun h j _ => not_headerAt_of_findHeader h j, fun h => ?_⟩
  cases hf : findHeader l with
  | none => rfl
  | some n =>
    have hat : HeaderAt l n := (firstHeader_of_findHeader hf).1
    have hlen : n + 2 ≤ l.length := hat.add_two_le
    exact absurd hat (h n (by omega))

/-- Settles O36: `findHeader` by its two equivalences, and a header takes two bytes. -/
theorem findHeaderIsTheLeastIndex : Obligations.FindHeaderIsTheLeastIndex := by
  refine ⟨fun l h => findHeader_eq_some_iff, fun l => findHeader_eq_none_iff,
    fun l h hf => (findHeader_eq_some_iff.mp hf).1.add_two_le, fun l hlen => ?_⟩
  refine findHeader_eq_none_iff.mpr fun j _ hat => ?_
  have hj : j + 2 ≤ l.length := hat.add_two_le
  omega

/-- A buffer has no header or a first one. -/
theorem noHeader_or_firstHeader (l : List Byte) : NoHeader l ∨ ∃ h, FirstHeader l h := by
  cases hf : findHeader l with
  | none => exact .inl (findHeader_eq_none_iff.mp hf)
  | some h => exact .inr ⟨h, findHeader_eq_some_iff.mp hf⟩

theorem parse_of_noHeader {buf : Memory} (h : NoHeader buf) : parse buf = ([], .noFrame) :=
  parse_of_none (findHeader_eq_none_iff.mpr h)

theorem parse_of_firstHeader {buf : Memory} {h : Nat} (hh : FirstHeader buf h) :
    parse buf = parseAtHeader (buf.drop h) :=
  parse_of_some (findHeader_eq_some_iff.mpr hh)

/-- A header within the first part of a list is one of the whole list. -/
theorem headerAt_append_iff {l : List Byte} {j : Nat} (r : List Byte) (hj : j + 2 ≤ l.length) :
    HeaderAt (l ++ r) j ↔ HeaderAt l j := by
  rw [HeaderAt, HeaderAt, List.getElem?_append_left (by omega), List.getElem?_append_left (by omega)]

/-- What stands behind the first header does not matter for the hunt. -/
theorem FirstHeader.append {l : List Byte} {h : Nat} (hh : FirstHeader l h) (r : List Byte) :
    FirstHeader (l ++ r) h := by
  obtain ⟨hat, hleast⟩ := hh
  have hlen : h + 2 ≤ l.length := hat.add_two_le
  exact ⟨(headerAt_append_iff r hlen).mpr hat,
    fun j hj => mt (headerAt_append_iff r (by omega)).mp (hleast j hj)⟩

theorem headerAt_drop_iff (l : List Byte) (h j : Nat) : HeaderAt (l.drop h) j ↔ HeaderAt l (h + j) := by
  rw [HeaderAt, HeaderAt, List.getElem?_drop, List.getElem?_drop, Nat.add_assoc]

theorem footerAt_drop_iff (l : List Byte) (h j : Nat) : FooterAt (l.drop h) j ↔ FooterAt l (h + j) := by
  rw [FooterAt, FooterAt, List.getElem?_drop, List.getElem?_drop, Nat.add_assoc]

/-- The hunt leaves the first header at the front (R132). -/
theorem FirstHeader.headerAt_front {l : List Byte} {h : Nat} (hh : FirstHeader l h) : HeaderAt (l.drop h) 0 :=
  (headerAt_drop_iff l h 0).mpr hh.1

/-! ### A header at the front -/

theorem parseAtHeader_of_length_lt_four {buf : Memory} (h : buf.length < 4) : parseAtHeader buf = (buf, .noFrame) :=
  if_pos h

/-- The length field is there and the whole candidate is not: wait (R134). -/
theorem parseAtHeader_of_length_lt {buf : Memory} {lo hi : Byte} (hlo : buf[2]? = some lo) (hhi : buf[3]? = some hi)
    (hT : buf.length < le16 lo hi + 8) : parseAtHeader buf = (buf, .noFrame) := by
  rw [← byteAt_of_getElem? hlo, ← byteAt_of_getElem? hhi] at hT
  rcases parseAtHeader_cases buf with ⟨e, -⟩ | ⟨-, hge, -⟩ | ⟨-, hge, -⟩
  · exact e
  · exact absurd hT (Nat.not_lt.mpr hge)
  · exact absurd hT (Nat.not_lt.mpr hge)

/-- The whole candidate is there: the footer decides (R135). -/
theorem parseAtHeader_of_length_ge {buf : Memory} {lo hi : Byte} (hlo : buf[2]? = some lo) (hhi : buf[3]? = some hi)
    (hT : le16 lo hi + 8 ≤ buf.length) :
    parseAtHeader buf =
      if FooterAt buf (le16 lo hi + 6) then
        (buf.drop (le16 lo hi + 8), .frame ((buf.drop 4).take (le16 lo hi)) (buf.take (le16 lo hi + 8)))
      else (buf.drop 1, .noFrame) := by
  have hfooter : FooterAt buf (le16 lo hi + 6) ↔
      byteAt buf (le16 lo hi + 6) = Config.ftr0 ∧ byteAt buf (le16 lo hi + 7) = Config.ftr1 := by
    rw [byteAt_eq_iff (by omega), byteAt_eq_iff (by omega)]
  have hcases := parseAtHeader_cases buf
  rw [byteAt_of_getElem? hlo, byteAt_of_getElem? hhi] at hcases
  rcases hcases with ⟨-, hshort⟩ | ⟨-, -, h0, h1, e⟩ | ⟨-, -, hne, e⟩
  · omega
  · rw [if_pos (hfooter.mpr ⟨h0, h1⟩), e]
  · rw [if_neg (mt hfooter.mp hne), e]

/-- The wire form of a frame with any two trailer bytes: its length bytes tell how long its payload is (R60, R61). -/
def FrameForm (payload raw : List Byte) : Prop :=
  ∃ lo hi t0 t1 : Byte, raw = [0xAB, 0xCD, lo, hi] ++ payload ++ [t0, t1, 0xDC, 0xBA] ∧
    payload.length = lo.toNat + 256 * hi.toNat

theorem FrameForm.length_raw {payload raw : List Byte} (h : FrameForm payload raw) :
    raw.length = payload.length + 8 := by
  obtain ⟨lo, hi, t0, t1, rfl, -⟩ := h
  simp only [List.length_append, List.length_cons, List.length_nil]
  omega

/-- Four bytes read one by one. -/
theorem take_four_drop {l : List Byte} {i : Nat} {a b c d : Byte} (ha : l[i]? = some a) (hb : l[i + 1]? = some b)
    (hc : l[i + 2]? = some c) (hd : l[i + 3]? = some d) : (l.drop i).take 4 = [a, b, c, d] := by
  simp [List.take_add_one, ha, hb, hc, hd]

/-- The raw bytes between a header and the footer at the length-implied position have the wire form. -/
theorem frameForm_of_footerAt {buf : Memory} {lo hi : Byte} (hh : HeaderAt buf 0) (hlo : buf[2]? = some lo)
    (hhi : buf[3]? = some hi) (hf : FooterAt buf (le16 lo hi + 6)) :
    FrameForm ((buf.drop 4).take (le16 lo hi)) (buf.take (le16 lo hi + 8)) := by
  generalize hL : le16 lo hi = L at hf ⊢
  obtain ⟨hf0, hf1⟩ := hf
  have hlen : L + 7 < buf.length := (List.getElem?_eq_some_iff.mp hf1).1
  have hhead : buf.take 4 = [0xAB, 0xCD, lo, hi] := take_four_drop hh.1 hh.2 hlo hhi
  have htail : (buf.drop (4 + L)).take 4 = [buf[L + 4], buf[L + 5], 0xDC, 0xBA] := by
    rw [Nat.add_comm 4 L]
    exact take_four_drop (List.getElem?_eq_getElem _) (List.getElem?_eq_getElem _) hf0 hf1
  refine ⟨lo, hi, buf[L + 4], buf[L + 5], ?_, ?_⟩
  · rw [← hhead, ← htail, ← List.take_add, ← List.take_add]
    congr 1
    omega
  · rw [List.length_take, List.length_drop]
    exact (Nat.min_eq_left (by omega)).trans hL.symm

/-- The length bytes announce at most 65535 payload bytes (R134). -/
theorem le16_lt (lo hi : Byte) : le16 lo hi < 65536 := by
  have hlo : lo.toNat < 256 := lo.isLt
  have hhi : hi.toNat < 256 := hi.isLt
  rw [le16]
  omega

/-- Everything steps 3 to 6 can do: wait, which a whole candidate never has to, drop the header's first byte, or take a
frame off the front (R133 to R135). -/
theorem parseAtHeader_outcome {buf : Memory} (hh : HeaderAt buf 0) :
    (parseAtHeader buf = (buf, .noFrame) ∧ buf.length < 65543) ∨
      parseAtHeader buf = (buf.drop 1, .noFrame) ∨
      ∃ payload raw rest, parseAtHeader buf = (rest, .frame payload raw) ∧ buf = raw ++ rest ∧
        FrameForm payload raw := by
  by_cases h4 : buf.length < 4
  · exact .inl ⟨parseAtHeader_of_length_lt_four h4, by omega⟩
  · have hlo : buf[2]? = some buf[2] := List.getElem?_eq_getElem (by omega)
    have hhi : buf[3]? = some buf[3] := List.getElem?_eq_getElem (by omega)
    by_cases hT : buf.length < le16 buf[2] buf[3] + 8
    · have hL := le16_lt buf[2] buf[3]
      exact .inl ⟨parseAtHeader_of_length_lt hlo hhi hT, by omega⟩
    · have e := parseAtHeader_of_length_ge hlo hhi (Nat.not_lt.mp hT)
      split at e
      · next hf =>
        exact .inr (.inr ⟨_, _, _, e, (List.take_append_drop _ buf).symm, frameForm_of_footerAt hh hlo hhi hf⟩)
      · exact .inr (.inl e)

/-- Everything FS.PARSE can do to a buffer with a first header (R144). -/
theorem parse_outcome {buf : Memory} {h : Nat} (hh : FirstHeader buf h) :
    (parse buf = (buf.drop h, .noFrame) ∧ (buf.drop h).length < 65543) ∨
      parse buf = (buf.drop (h + 1), .noFrame) ∨
      ∃ payload raw rest, parse buf = (rest, .frame payload raw) ∧ buf.drop h = raw ++ rest ∧
        FrameForm payload raw := by
  rw [parse_of_firstHeader hh, ← List.drop_drop]
  exact parseAtHeader_outcome hh.headerAt_front

/-- FS.PARSE leaves the buffer as it was and responds `NO_FRAME`. -/
def AtRest (buf : Memory) : Prop := parse buf = (buf, .noFrame)

/-- One FS.PARSE either makes the buffer shorter or finds it at rest, and no buffer of 65543 bytes is at rest (R146). -/
theorem parse_progress (buf : Memory) :
    (AtRest buf ∧ buf.length < 65543) ∨ (parse buf).1.length < buf.length := by
  rcases noHeader_or_firstHeader buf with hno | ⟨h, hh⟩
  · have e := parse_of_noHeader hno
    cases buf with
    | nil => exact .inl ⟨e, by decide⟩
    | cons b buf => exact .inr (by rw [e]; exact Nat.succ_pos _)
  · have hlen : h + 2 ≤ buf.length := hh.1.add_two_le
    rcases parse_outcome hh with ⟨e, hshort⟩ | e | ⟨payload, raw, rest, e, hsplit, hform⟩
    · cases h with
      | zero => exact .inl ⟨e, hshort⟩
      | succ h =>
        rw [e, List.length_drop]
        exact .inr (by omega)
    · rw [e, List.length_drop]
      exact .inr (by omega)
    · have hsum := congrArg List.length hsplit
      rw [List.length_drop, List.length_append, hform.length_raw] at hsum
      rw [e]
      exact .inr (by dsimp only; omega)

/-- What FS.PARSE emits is a frame, as it stood in the buffer (R149). -/
theorem frame_of_parse {buf : Memory} {payload raw : List Byte} (h : (parse buf).2 = .frame payload raw) :
    raw <:+: buf ∧ FrameForm payload raw := by
  rcases noHeader_or_firstHeader buf with hno | ⟨n, hh⟩
  · rw [parse_of_noHeader hno] at h
    cases h
  · rcases parse_outcome hh with ⟨e, -⟩ | e | ⟨_, _, rest, e, hsplit, hform⟩
    · rw [e] at h
      cases h
    · rw [e] at h
      cases h
    · rw [e] at h
      cases h
      have hprefix : raw <+: buf.drop n := ⟨rest, hsplit.symm⟩
      exact ⟨hprefix.isInfix.trans (List.drop_suffix n buf).isInfix, hform⟩

end Sys2Proof.Machine
end

section
/-!
SUPPORT. Runs of commands and the receive buffer (`42_frame_sync.md` R142 to R149): the bytes that any commands take in, and
FS.PARSE over and over.
-/
namespace Sys2Proof.Machine

open Sys2Proof

/-! ### The bytes taken in -/

/-- What the first command takes in stands before what the others do. -/
theorem acceptedBytes_cons (i : Instr) (is : List Instr) (r : Response) (rs : List Response) :
    acceptedBytes (i :: is) (r :: rs) = acceptedBytes [i] [r] ++ acceptedBytes is rs := by
  cases i with
  | fsPush d => cases r <;> rfl
  | c16Init | c16Upd | c16Get | c32Init | c32Upd | c32Get | fsClr | fsParse | fsLevel => rfl

/-- A command leaves in the buffer the end of what was there and what it took in (R137, R149). -/
theorem effect_buf_suffix (cap : Nat) (i : Instr) (m : Inst) :
    (effect cap i m).1.buf <:+ m.buf ++ acceptedBytes [i] [(effect cap i m).2] := by
  have hnothing : m.buf <:+ m.buf ++ [] := (List.append_nil m.buf).symm ▸ List.suffix_rfl
  cases i with
  | c16Init | c16Upd | c16Get | c32Init | c32Upd | c32Get | fsLevel => exact hnothing
  | fsClr => exact List.nil_suffix
  | fsParse => exact (parse_suffix m.buf).trans hnothing
  | fsPush d =>
    rcases fsPush_cases cap d m with e | e <;> rw [effect, e]
    · exact List.suffix_rfl
    · exact hnothing

/-- What the commands after the first one start from and take in is the end of what all of them do. -/
theorem append_acceptedBytes_suffix (cap : Nat) (i : Instr) (m : Inst) (is : List Instr) (rs : List Response) :
    (effect cap i m).1.buf ++ acceptedBytes is rs <:+ m.buf ++ acceptedBytes (i :: is) ((effect cap i m).2 :: rs) := by
  obtain ⟨gone, hgone⟩ := effect_buf_suffix cap i m
  refine ⟨gone, ?_⟩
  rw [acceptedBytes_cons, ← List.append_assoc, hgone, List.append_assoc]

/-- Only FS.PARSE responds with a frame (R77), and the frame stood in its buffer. -/
theorem frame_of_effect {cap : Nat} {i : Instr} {m : Inst} {payload raw : List Byte}
    (h : (effect cap i m).2 = .frame payload raw) : raw <:+: m.buf ∧ FrameForm payload raw := by
  cases i with
  | fsParse => exact frame_of_parse h
  | c16Init | c16Upd | c16Get | c32Init | c32Upd | c32Get | fsClr | fsLevel => cases h
  | fsPush d => rcases fsPush_cases cap d m with e | e <;> rw [effect, e] at h <;> cases h

/-- The first sentence of R149 for the commands that one instance executes. -/
theorem wordsEffect_runs (cap : Nat) (is : List Instr) {m n : Inst} {rs : List Response}
    (h : wordsEffect cap (is.map encode) m = (n, rs)) :
    n.buf <:+ m.buf ++ acceptedBytes is rs ∧
      ∀ payload raw, .frame payload raw ∈ rs →
        raw <:+: m.buf ++ acceptedBytes is rs ∧ FrameForm payload raw := by
  induction is generalizing m rs with
  | nil =>
    cases h
    exact ⟨(List.append_nil _).symm ▸ List.suffix_rfl, nofun⟩
  | cons i is ih =>
    simp only [List.map_cons, wordsEffect, wordEffect_encode] at h
    cases h
    obtain ⟨hsuffix, hframes⟩ := ih (m := (effect cap i m).1) rfl
    have hend := append_acceptedBytes_suffix cap i m is (wordsEffect cap (is.map encode) (effect cap i m).1).2
    refine ⟨hsuffix.trans hend, fun payload raw hmem => ?_⟩
    rcases List.mem_cons.mp hmem with hhead | htail
    · obtain ⟨hraw, hform⟩ := frame_of_effect hhead.symm
      exact ⟨hraw.trans (List.prefix_append _ _).isInfix, hform⟩
    · obtain ⟨hraw, hform⟩ := hframes payload raw htail
      exact ⟨hraw.trans hend.isInfix, hform⟩

/-- Settles O48: the run on the channel (`run_issue`), by `wordsEffect_runs`. -/
theorem emittedFramesAreRunsOfThePushedBytes : Obligations.EmittedFramesAreRunsOfThePushedBytes := by
  intro is s ch p hp
  obtain ⟨t, hrun, hport⟩ := run_issue is hp
  obtain ⟨hsuffix, hframes⟩ := wordsEffect_runs s.cfg.bufCap is (m := p.inst) rfl
  refine ⟨t, _, _, hrun, hport, rfl, ?_, hsuffix, hframes⟩
  rw [wordsEffect_length, List.length_map]

/-! ### FS.PARSE over and over -/

/-- Every call that does not find the buffer at rest makes it shorter, so the bytes bound the calls (R144). -/
theorem exists_parses_atRest (cap : Nat) (m : Inst) :
    ∃ k ≤ m.buf.length, AtRest (wordsEffect cap ((List.replicate k Instr.fsParse).map encode) m).1.buf := by
  induction hn : m.buf.length using Nat.strong_induction_on generalizing m with
  | _ n ih =>
    rcases parse_progress m.buf with ⟨hrest, -⟩ | hlt
    · exact ⟨0, Nat.zero_le n, hrest⟩
    · obtain ⟨k, (hk : k ≤ (parse m.buf).1.length), hrest⟩ := ih _ (hn ▸ hlt) (fsParse m).1 rfl
      refine ⟨k + 1, by omega, ?_⟩
      simp only [List.replicate_succ, List.map_cons, wordsEffect, wordEffect_encode]
      exact hrest

/-- FS.PARSE on a channel, from what it does to the buffer there. -/
theorem exec_fsParse_of_parse {s : State} {p : Port} {buf : Memory} {r : Response} (hp : s.serves p)
    (h : parse p.inst.buf = (buf, r)) : exec .fsParse s = s.answered p { p.inst with buf := buf } r := by
  rw [exec_of_port .fsParse hp]
  simp only [effect, fsParse, h]

/-- Settles O50: as many calls as `exists_parses_atRest` says, and one more finds the buffer at rest. -/
theorem repeatedParsingComesToRest : Obligations.RepeatedParsingComesToRest := by
  intro s ch p hp
  obtain ⟨k, hk, hrest⟩ := exists_parses_atRest s.cfg.bufCap p.inst
  obtain ⟨t, hrun, hport⟩ := run_issue (List.replicate k .fsParse) hp
  rw [List.length_replicate] at hrun
  exact ⟨k, hk, t, _, hrun, hport, exec_fsParse_of_parse (s := { t with sel := ch }) hport hrest⟩

end Sys2Proof.Machine
end

section
/-!
SUPPORT. The FS commands on a channel (`42_frame_sync.md` R132 to R146), from what they do to the buffer there.
-/
namespace Sys2Proof.Machine

open Sys2Proof

/-! ### FS.PUSH, FS.CLR, FS.LEVEL -/

theorem fsPush_of_lt {cap : Nat} {m : Inst} (d : Byte) (h : m.buf.length < cap) :
    fsPush cap d m = ({ m with buf := m.buf ++ [d] }, .ok) :=
  if_pos h

theorem fsPush_of_ge {cap : Nat} {m : Inst} (d : Byte) (h : cap ≤ m.buf.length) : fsPush cap d m = (m, .full) :=
  if_neg (Nat.not_lt.mpr h)

/-- FS.PUSH where there is room. -/
theorem exec_fsPush_of_lt {s : State} {p : Port} (d : Byte) (hp : s.serves p) (h : p.inst.buf.length < s.cfg.bufCap) :
    exec (.fsPush d) s = s.answered p { p.inst with buf := p.inst.buf ++ [d] } .ok := by
  rw [exec_of_port (.fsPush d) hp, effect, fsPush_of_lt d h]

/-- Settles O42: `FS.PUSH` with room and without. -/
theorem fsPushAppendsOrRefuses : Obligations.FsPushAppendsOrRefuses := by
  refine fun s p d hp => ⟨exec_fsPush_of_lt d hp, fun hfull => ?_⟩
  rw [exec_of_port (.fsPush d) hp, effect, fsPush_of_ge d hfull]

/-- Settles O43, with `exec_of_port`: the effect of `FS.CLR`. -/
theorem fsClrEmptiesTheBuffer : Obligations.FsClrEmptiesTheBuffer :=
  fun _ _ hp => exec_of_port .fsClr hp

/-- Settles O44, with `exec_of_port`: the effect of `FS.LEVEL`. -/
theorem fsLevelReportsTheLength : Obligations.FsLevelReportsTheLength :=
  fun _ _ hp => exec_of_port .fsLevel hp

/-! ### FS.PARSE -/

/-- FS.PARSE on a channel with a first header in its buffer, from steps 3 to 6. -/
theorem exec_fsParse_of_firstHeader {s : State} {p : Port} {h : Nat} {buf : Memory} {r : Response} (hp : s.serves p)
    (hh : FirstHeader p.inst.buf h) (e : parseAtHeader (p.inst.buf.drop h) = (buf, r)) :
    exec .fsParse s = s.answered p { p.inst with buf := buf } r :=
  exec_fsParse_of_parse hp ((parse_of_firstHeader hh).trans e)

/-- Settles O37: each outcome of FS.PARSE with a first header removes the noise and some bytes from the header on. -/
theorem parseHuntDiscardsTheNoise : Obligations.ParseHuntDiscardsTheNoise := by
  refine fun s p hp => ⟨fun hno => exec_fsParse_of_parse hp (parse_of_noHeader hno), fun h hh => ?_⟩
  rcases parse_outcome hh with ⟨e, -⟩ | e | ⟨payload, raw, rest, e, hsplit, -⟩
  · exact ⟨0, _, exec_fsParse_of_parse hp e, fun _ => Nat.zero_le 1⟩
  · exact ⟨1, _, exec_fsParse_of_parse hp e, fun _ => le_rfl⟩
  · have hrest : p.inst.buf.drop (h + raw.length) = rest := by
      rw [← List.drop_drop, hsplit, List.drop_left]
    exact ⟨raw.length, .frame payload raw, exec_fsParse_of_parse hp (hrest ▸ e), nofun⟩

/-- Settles O38: fewer than four bytes from the header on. -/
theorem parseWaitsForTheLengthField : Obligations.ParseWaitsForTheLengthField := by
  intro s p h hp hh hlen
  refine exec_fsParse_of_firstHeader hp hh (parseAtHeader_of_length_lt_four ?_)
  rw [List.length_drop]
  omega

/-- Settles O39: the length bytes stand at 2 and 3 from the header on. -/
theorem parseWaitsForTheWholeFrame : Obligations.ParseWaitsForTheWholeFrame := by
  intro s p h lo hi hp hh hlo hhi hlen
  rw [← List.getElem?_drop] at hlo hhi
  refine exec_fsParse_of_firstHeader hp hh (parseAtHeader_of_length_lt hlo hhi ?_)
  rw [List.length_drop, le16]
  omega

/-- FS.PARSE with a whole candidate behind the hunt: the footer decides (R135). -/
theorem exec_fsParse_of_candidate {s : State} {p : Port} {h : Nat} {lo hi : Byte} (hp : s.serves p)
    (hh : FirstHeader p.inst.buf h) (hlo : p.inst.buf[h + 2]? = some lo) (hhi : p.inst.buf[h + 3]? = some hi)
    (hT : h + (le16 lo hi + 8) ≤ p.inst.buf.length) :
    exec .fsParse s =
      if FooterAt p.inst.buf (h + le16 lo hi + 6) then
        s.answered p { p.inst with buf := p.inst.buf.drop (h + (le16 lo hi + 8)) }
          (.frame ((p.inst.buf.drop (h + 4)).take (le16 lo hi)) ((p.inst.buf.drop h).take (le16 lo hi + 8)))
      else s.answered p { p.inst with buf := p.inst.buf.drop (h + 1) } .noFrame := by
  rw [← List.getElem?_drop] at hlo hhi
  have e := parseAtHeader_of_length_ge hlo hhi (by rw [List.length_drop]; omega)
  simp only [footerAt_drop_iff, List.drop_drop, ← Nat.add_assoc] at e
  split at e
  · next hf => rw [if_pos hf, exec_fsParse_of_firstHeader hp hh e, ← Nat.add_assoc]
  · next hf => rw [if_neg hf, exec_fsParse_of_firstHeader hp hh e]

/-- Settles O40: the two branches of `exec_fsParse_of_candidate`. -/
theorem parseChecksTheFooterOnly : Obligations.ParseChecksTheFooterOnly := by
  rintro s p h L lo hi hp hh hlo hhi rfl hT
  have e := exec_fsParse_of_candidate hp hh hlo hhi hT
  exact ⟨fun hf => e.trans (if_pos hf), fun hf => e.trans (if_neg hf)⟩

/-- Settles O46: without a header the hunt empties the buffer, with one `parse_outcome` says the rest. -/
theorem everyParseDoesOneOfFourThings : Obligations.EveryParseDoesOneOfFourThings := by
  intro s p hp
  rcases noHeader_or_firstHeader p.inst.buf with hno | ⟨h, hh⟩
  · exact ⟨[], _, exec_fsParse_of_parse hp (parse_of_noHeader hno), .inl ⟨hno, rfl, rfl⟩⟩
  · rcases parse_outcome hh with ⟨e, -⟩ | e | ⟨payload, raw, rest, e, hsplit, hform⟩
    · exact ⟨_, _, exec_fsParse_of_parse hp e, .inr ⟨h, hh, .inl ⟨rfl, hh.headerAt_front, rfl⟩⟩⟩
    · exact ⟨_, _, exec_fsParse_of_parse hp e, .inr ⟨h, hh, .inr (.inl ⟨rfl, rfl⟩)⟩⟩
    · have hlen : 8 ≤ raw.length := hform.length_raw ▸ Nat.le_add_left 8 _
      exact ⟨_, _, exec_fsParse_of_parse hp e, .inr ⟨h, hh, .inr (.inr ⟨payload, raw, rfl, hlen, hsplit⟩)⟩⟩

/-- Settles O47: a full buffer is not at rest (`parse_progress`), so FS.PARSE makes room for the FS.PUSH. -/
theorem fullBufferIsAlwaysRelieved : Obligations.FullBufferIsAlwaysRelieved := by
  rintro s p ⟨hcap, -⟩ hp hfull
  have hroom : (parse p.inst.buf).1.length < s.cfg.bufCap := by
    rcases parse_progress p.inst.buf with ⟨-, hshort⟩ | hlt
    · omega
    · exact hfull ▸ hlt
  exact ⟨_, _, exec_fsParse_of_parse hp rfl, hroom, fun d => exec_fsPush_of_lt d (State.answer_port hp _ _) hroom⟩

/-- Steps 3 to 6 on a whole candidate: only the length bytes and the last two bytes are looked at (R140, R141). -/
theorem parseAtHeader_candidate {payload : List Byte} {lo hi : Byte} (hlen : payload.length = le16 lo hi)
    (t0 t1 f0 f1 : Byte) (rest : List Byte) :
    parseAtHeader ([0xAB, 0xCD, lo, hi] ++ payload ++ [t0, t1, f0, f1] ++ rest) =
      if f0 = 0xDC ∧ f1 = 0xBA then (rest, .frame payload ([0xAB, 0xCD, lo, hi] ++ payload ++ [t0, t1, f0, f1]))
      else ([0xCD, lo, hi] ++ payload ++ [t0, t1, f0, f1] ++ rest, .noFrame) := by
  rw [parseAtHeader_of_length_ge (lo := lo) (hi := hi) rfl rfl (by simp [hlen]), ← hlen]
  simp [FooterAt, List.take_length_add_append]

/-- Settles O45: the noise goes by the hunt, and `parseAtHeader_candidate` says what becomes of the candidate. -/
theorem parseNeverLooksAtTheBody : Obligations.ParseNeverLooksAtTheBody := by
  intro s p noise payload rest lo hi t0 t1 f0 f1 hp hnoise hlen hbuf
  have hh : FirstHeader p.inst.buf noise.length := by
    have happend := hnoise.append ([lo, hi] ++ payload ++ [t0, t1, f0, f1] ++ rest)
    simpa [hbuf] using happend
  have e := parseAtHeader_candidate hlen t0 t1 f0 f1 rest
  have hdrop : p.inst.buf.drop noise.length =
      [0xAB, 0xCD, lo, hi] ++ payload ++ [t0, t1, f0, f1] ++ rest := by
    rw [hbuf, List.append_assoc, List.drop_left]
  rw [← hdrop] at e
  split at e
  · next hf => rw [if_pos hf, exec_fsParse_of_firstHeader hp hh e]
  · next hf => rw [if_neg hf, exec_fsParse_of_firstHeader hp hh e]

end Sys2Proof.Machine
end

section
/-!
SUPPORT. The frame codec (`43_context_codec_and_sessions.md` R161 to R171): obfuscation byte by byte, the packetized
frame as FS.PARSE sees it, and the checksums that the block's commands build.
-/
namespace Sys2Proof.Machine

open Sys2Proof

/-! ### Obfuscation -/

@[simp] theorem length_xorFrom (i : Nat) (body : List Byte) : (xorFrom i body).length = body.length := by
  induction body generalizing i with
  | nil => rfl
  | cons b body ih => simp [xorFrom, ih]

theorem xorFrom_xorFrom (i : Nat) (body : List Byte) : xorFrom i (xorFrom i body) = body := by
  induction body generalizing i with
  | nil => rfl
  | cons b body ih => simp [xorFrom, ih]

/-- Byte `j` meets the key byte that stands `j` further on from where the count began. -/
theorem getElem?_xorFrom (i j : Nat) (body : List Byte) :
    (xorFrom i body)[j]? = body[j]?.map (· ^^^ xorKey.getD ((i + j) % 16) 0x00#8) := by
  induction body generalizing i j with
  | nil => rfl
  | cons b body ih =>
    cases j with
    | zero => rfl
    | succ j =>
      simp only [xorFrom, List.getElem?_cons_succ, ih]
      rw [Nat.add_right_comm, Nat.add_assoc]

@[simp] theorem length_obfuscate (body : List Byte) : (obfuscate body).length = body.length := length_xorFrom 0 body

@[simp] theorem obfuscate_obfuscate (body : List Byte) : obfuscate (obfuscate body) = body := xorFrom_xorFrom 0 body

/-- The key has a byte for every index mod 16 (R162). -/
theorem getElem?_xorKey_mod (i : Nat) : xorKey[i % 16]? = some (xorKey.getD (i % 16) 0x00#8) := by
  have hlt : i % 16 < xorKey.length := Nat.mod_lt i (by decide)
  simp [List.getElem?_eq_getElem hlt]

/-- Settles O55: the facts about `xorFrom`, counted from 0. -/
theorem obfuscationIsItsOwnInverse : Obligations.ObfuscationIsItsOwnInverse := by
  refine fun body => ⟨obfuscate_obfuscate body, length_obfuscate body, fun i b hb => ?_⟩
  rw [obfuscate, getElem?_xorFrom, hb, Nat.zero_add, getElem?_xorKey_mod]
  rfl

/-! ### The body of a frame -/

@[simp] theorem length_u16LE (v : Word16) : (u16LE v).length = 2 := rfl

@[simp] theorem length_plainBody (payload : List Byte) : (plainBody payload).length = payload.length + 2 := by
  simp [plainBody]

theorem take_plainBody (payload : List Byte) : (plainBody payload).take payload.length = payload := by
  simp [plainBody]

theorem stripTrailer_plainBody (payload : List Byte) : stripTrailer (plainBody payload) = payload := by
  rw [stripTrailer, length_plainBody, Nat.add_sub_cancel, take_plainBody]

/-- A body that does not itself begin with the reply identifier is read in reverse (R164). -/
theorem decodeBody_of_ne_replyId {body : List Byte} (h : body.take 2 ≠ replyId) :
    (decodeBody body).1 = stripTrailer (obfuscate body) := by
  have hplain : (body.take 2 == replyId) = false := beq_false_of_ne h
  simp only [decodeBody, hplain]
  cases (obfuscate body).take 2 == replyId <;> rfl

/-- Settles O56: the reversed reading of the obfuscated body is the plain body. -/
theorem decodeUndoesAnObfuscatedBody : Obligations.DecodeUndoesAnObfuscatedBody := by
  intro payload h
  rw [decodeBody_of_ne_replyId h, obfuscate_obfuscate, stripTrailer_plainBody]

/-! ### A packetized frame pushed and parsed -/

/-- `u16LE` and `le16` are inverse to each other on the lengths that two bytes hold (R41, R61). -/
theorem exists_u16LE_ofNat {n : Nat} (h : n ≤ 65535) :
    ∃ lo hi : Byte, u16LE (BitVec.ofNat 16 n) = [lo, hi] ∧ n = le16 lo hi := by
  refine ⟨_, _, rfl, ?_⟩
  simp only [le16, BitVec.extractLsb'_toNat, BitVec.toNat_ofNat, Nat.shiftRight_eq_div_pow]
  omega

/-- A list two longer than `n` is its first `n` bytes and two more. -/
theorem exists_eq_take_append_pair {n : Nat} {body : List Byte} (h : body.length = n + 2) :
    ∃ t0 t1, body = body.take n ++ [t0, t1] := by
  obtain ⟨t0, t1, ht⟩ := List.length_eq_two.mp (show (body.drop n).length = 2 by rw [List.length_drop]; omega)
  exact ⟨t0, t1, by rw [← ht, List.take_append_drop]⟩

/-- The body as it stands in the frame (R161). -/
def sentBody (payload : List Byte) (x : Bool) : List Byte :=
  if x then obfuscate (plainBody payload) else plainBody payload

theorem length_sentBody (payload : List Byte) (x : Bool) : (sentBody payload x).length = payload.length + 2 := by
  cases x <;> simp [sentBody]

/-- The payload field of the frame: the first bytes of the body, which are the payload where nothing is obfuscated. -/
theorem take_sentBody (payload : List Byte) (x : Bool) :
    (sentBody payload x).take payload.length =
      (if x then obfuscate (plainBody payload) else payload).take payload.length := by
  cases x
  · exact (take_plainBody payload).trans List.take_length.symm
  · rfl

/-- A packetized frame has the wire form, with the first bytes of the body as its payload field (R60, R161). -/
theorem packetize_frameForm {payload frame : List Byte} {x : Bool} (h : packetize payload x = some frame) :
    payload.length ≤ 65535 ∧ FrameForm ((sentBody payload x).take payload.length) frame := by
  unfold packetize at h
  split at h
  · next hlen =>
    obtain ⟨lo, hi, hfield, hle⟩ := exists_u16LE_ofNat hlen
    have hsent := length_sentBody payload x
    obtain ⟨t0, t1, hbody⟩ := exists_eq_take_append_pair hsent
    refine ⟨hlen, lo, hi, t0, t1, ?_, ?_⟩
    · rw [← Option.some.inj h, frameAround, hfield, ← sentBody]
      conv_lhs => rw [hbody]
      simp
    · rw [List.length_take, hsent, Nat.min_eq_left (Nat.le_add_right _ 2), ← le16]
      exact hle
  · cases h

/-- A buffer that holds one frame of the wire form and nothing else is parsed whole (R141). -/
theorem parse_of_frameForm {payload raw : List Byte} (h : FrameForm payload raw) :
    parse raw = ([], .frame payload raw) := by
  obtain ⟨lo, hi, t0, t1, rfl, hlen⟩ := h
  have e := parseAtHeader_candidate hlen t0 t1 0xDC 0xBA []
  rw [List.append_nil, if_pos ⟨rfl, rfl⟩] at e
  exact (parse_of_some (n := 0) rfl).trans e

/-- `FS.FEED` of bytes that have room: all are taken in, in order (R81, R137). -/
theorem wordsEffect_fsFeed {cap : Nat} {bytes : List Byte} {m : Inst} (h : m.buf.length + bytes.length ≤ cap) :
    wordsEffect cap ((fsFeed bytes).map encode) m =
      ({ m with buf := m.buf ++ bytes }, List.replicate bytes.length .ok) := by
  induction bytes generalizing m with
  | nil => simp [fsFeed, wordsEffect]
  | cons b bytes ih =>
    rw [List.length_cons] at h
    have hpush := fsPush_of_lt (cap := cap) b (m := m) (by omega)
    have hrest := ih (m := { m with buf := m.buf ++ [b] }) (by simp; omega)
    simp only [fsFeed, List.map_cons, wordsEffect, wordEffect_encode, effect, hpush] at hrest ⊢
    rw [hrest]
    simp [List.replicate_succ]

/-- `FS.FEED` of a frame into an empty buffer and one FS.PARSE: the frame comes out, and the instance is as before. -/
theorem wordsEffect_fsFeed_fsParse {cap : Nat} {payload frame : List Byte} {m : Inst} (hm : m.buf = [])
    (hform : FrameForm payload frame) (hroom : frame.length ≤ cap) :
    wordsEffect cap ((fsFeed frame ++ [Instr.fsParse]).map encode) m =
      (m, List.replicate frame.length .ok ++ [.frame payload frame]) := by
  have hfeed := wordsEffect_fsFeed (cap := cap) (bytes := frame) (m := m) (by simpa [hm] using hroom)
  rw [hm, List.nil_append] at hfeed
  rw [List.map_append, wordsEffect_append, hfeed]
  simp only [List.map_cons, List.map_nil, wordsEffect, wordEffect_encode, effect, fsParse, parse_of_frameForm hform]
  rw [← hm]

/-- A list of commands issued on a channel that exists: the ports after the run (compare `run_issue`). -/
theorem run_issue_ports (is : List Instr) {s : State} {ch : Nat} {p : Port} (hp : s.ports[ch]? = some p) :
    ∃ t, core.run is.length (s.issue ch is) = .next t ∧
      t.ports = s.ports.set ch
        { inst := (wordsEffect s.cfg.bufCap (is.map encode) p.inst).1
          unread := p.unread ++ (wordsEffect s.cfg.bufCap (is.map encode) p.inst).2 } := by
  obtain ⟨t, hrun, -, -, hports⟩ :=
    run_words (is.map encode) (s.issue ch is) ch p s.inputs hp (by simp [State.issue])
  rw [List.length_map] at hrun
  exact ⟨t, hrun, hports⟩

/-- Settles O54: the frame has the wire form and fits (R8), and the run on the channel is `wordsEffect_fsFeed_fsParse`. -/
theorem packetizedPayloadIsDelivered : Obligations.PacketizedPayloadIsDelivered := by
  intro payload frame x hframe s ch p hcfg hp hbuf
  obtain ⟨hlen, hform⟩ := packetize_frameForm hframe
  have hroom : frame.length ≤ s.cfg.bufCap := by
    have hraw := hform.length_raw
    rw [List.length_take] at hraw
    omega
  obtain ⟨t, hrun, hports⟩ := run_issue_ports (fsFeed frame ++ [.fsParse]) hp
  refine ⟨t, by simpa [fsFeed] using hrun, ?_⟩
  rw [hports, wordsEffect_fsFeed_fsParse hbuf hform hroom, take_sentBody, ← List.append_assoc]

/-! ### The checksums built with the block's commands -/

/-- `C16.MSG` leaves the checksum in the register and gives it as the last response (R96, R171). -/
theorem drive_c16MsgCommands (bytes : List Byte) (m : Inst) :
    drive (c16MsgCommands bytes) m =
      ({ m with crc16 := crc16Xmodem bytes },
        .ok :: List.replicate bytes.length .ok ++ [.val16 (crc16Xmodem bytes)]) := by
  simp only [c16MsgCommands, List.cons_append, drive, drive_append, drive_c16Upd]
  rfl

/-- `C32.MSG` leaves the running value in the register and gives the checksum as the last response (R116, R179). -/
theorem drive_c32MsgCommands (bytes : List Byte) (m : Inst) :
    drive (c32MsgCommands bytes) m =
      ({ m with crc32 := bytes.foldl crc32Step Config.init32 },
        .ok :: List.replicate bytes.length .ok ++ [.val32 (crc32 bytes)]) := by
  simp only [c32MsgCommands, List.cons_append, drive, drive_append, drive_c32Upd]
  rfl

theorem drivePacketize_eq (payload : List Byte) (x : Bool) (m : Inst) :
    drivePacketize payload x m = ({ m with crc16 := crc16Xmodem payload }, packetize payload x) := by
  simp only [drivePacketize, drive_c16MsgCommands, List.getLast?_concat]
  rfl

theorem driveChunk_eq (seq : Word32) (data : List Byte) (m : Inst) :
    driveChunk seq data m =
      ({ m with crc32 := data.foldl crc32Step Config.init32 }, some (chunkPacket seq data)) := by
  simp only [driveChunk, drive_c32MsgCommands, List.getLast?_concat]
  rfl

theorem crc16Xmodem_queryPayload : crc16Xmodem queryPayload = 0xD410 := by decide +kernel

/-- Settles O57: the driven forms are the codec's, for the query's payload too. -/
theorem drivenChecksumsMatchTheCodec : Obligations.DrivenChecksumsMatchTheCodec := by
  refine ⟨drivePacketize_eq, driveChunk_eq, fun h => ?_⟩
  simp only [Handshake.send, drivePacketize_eq, crc16Xmodem_queryPayload, and_self]

end Sys2Proof.Machine
end

section
/-!
SUPPORT. The transfer session (`43_context_codec_and_sessions.md` R178 to R182): a session that waits for nothing stays as
it is, and a failed chunk is sent again until the bound is reached.
-/
namespace Sys2Proof.Machine

open Sys2Proof

/-! ### A rejected session -/

/-- No event moves an aborted session or makes it write. -/
theorem next_of_aborted {t : Transfer} {why : ErrorClass} (h : t.phase = .aborted why) (e : TransferEvent) :
    (t.next e).phase = .aborted why ∧ (t.next e).written = t.written := by
  cases e with
  | goOn =>
    have hstay : t.onGoOn = t := by simp only [Transfer.onGoOn, h]
    rw [Transfer.next, hstay]
    exact ⟨h, rfl⟩
  | read bytes =>
    have hnone : ∀ b, t.onByte b = none := fun b => by simp only [Transfer.onByte, h]
    rw [Transfer.next, consume_of_none hnone]
    exact ⟨h, rfl⟩
  | deadline =>
    have hstay : t.onDeadline = t := by simp only [Transfer.onDeadline, h]
    rw [Transfer.next, hstay]
    exact ⟨h, rfl⟩

/-- Nor does any run of events. -/
theorem foldl_next_of_aborted {t : Transfer} {why : ErrorClass} (h : t.phase = .aborted why) (es : List TransferEvent) :
    (es.foldl Transfer.next t).phase = .aborted why ∧ (es.foldl Transfer.next t).written = t.written := by
  induction es generalizing t with
  | nil => exact ⟨h, rfl⟩
  | cons e es ih =>
    obtain ⟨hphase, hwritten⟩ := next_of_aborted h e
    rw [← hwritten]
    exact ih hphase

/-- Settles O58: the listed sizes are out of R178's bounds, so the session starts aborted. -/
theorem transferValidationRejectsWithoutWriting : Obligations.TransferValidationRejectsWithoutWriting := by
  intro lim image chunk goLine es hsize
  have hbounds : ¬ lim.admits image.length chunk := by
    have hmin := lim.minFw_gt
    rintro ⟨⟨hpos, hchunk⟩, hlow, hhigh⟩
    omega
  exact foldl_next_of_aborted (t := Transfer.start lim image chunk goLine) (if_neg hbounds) es

/-! ### A failed chunk -/

@[simp] theorem sendChunk_written (t : Transfer) :
    t.sendChunk.written = t.written ++ [chunkPacket (BitVec.ofNat 32 t.seq) t.data] := by
  rw [Transfer.sendChunk, driveChunk_eq]
  rfl

/-- Below the bound a retry is a resend (R180). -/
theorem retry_of_lt {t : Transfer} (h : t.retries + 1 < retryBound) :
    t.retry = { t with retries := t.retries + 1, statusDue := false }.sendChunk :=
  if_pos h

/-- The same packet again (R180). -/
theorem retry_written_of_lt {t : Transfer} (h : t.retries + 1 < retryBound) :
    t.retry.written = t.written ++ [chunkPacket (BitVec.ofNat 32 t.seq) t.data] := by
  rw [retry_of_lt h]
  exact sendChunk_written _

/-- At the bound a retry aborts (R180, R182). -/
theorem retry_of_ge {t : Transfer} (h : retryBound ≤ t.retries + 1) :
    t.retry = { t with retries := t.retries + 1, statusDue := false, phase := .aborted .retryExhausted } :=
  if_neg (Nat.not_lt.mpr h)

@[simp] theorem retry_unread (t : Transfer) : t.retry.unread = t.unread := by
  unfold Transfer.retry
  split <;> rfl

/-- A read with nothing unread before it. -/
theorem next_read {t : Transfer} (h : t.unread = []) (bytes : List Byte) : t.next (.read bytes) = t.consume bytes := by
  rw [Transfer.next, h, List.nil_append]

/-- The first byte of a read answers the chunk that the session waits on. -/
theorem consume_cons_of_transfer {t : Transfer} (h : t.phase = .transfer) (b : Byte) (bytes : List Byte) :
    t.consume (b :: bytes) = (t.onReply b).consume bytes := by
  simp only [Transfer.consume, Transfer.onByte, h]

theorem consume_nil {t : Transfer} (h : t.unread = []) : t.consume [] = t := by
  rw [Transfer.consume, ← h]

/-- A failing event is one retry, with at most a note in the log (R180). -/
theorem next_of_failsChunk {t : Transfer} {f : TransferEvent} (hphase : t.phase = .transfer)
    (hdue : t.statusDue = false) (hunread : t.unread = []) (hf : f.failsChunk = true) :
    ∃ notes, t.next f = { t with log := notes }.retry := by
  match f, hf with
  | .deadline, _ =>
    have hdeadline : t.onDeadline = t.onChunkDeadline := by simp only [Transfer.onDeadline, hphase]
    exact ⟨_, hdeadline⟩
  | .read [b], hf =>
    have hb : b ≠ 0x41#8 ∧ b ≠ 0x45#8 := by simpa [TransferEvent.failsChunk] using hf
    have hreply : t.onReply b = t.retry := by simp [Transfer.onReply, hdue, hb]
    refine ⟨t.log, ?_⟩
    rw [next_read hunread, consume_cons_of_transfer hphase, hreply]
    exact consume_nil ((retry_unread t).trans hunread)
  | .read [b, status], hf =>
    obtain rfl : b = 0x45#8 := by simpa [TransferEvent.failsChunk] using hf
    have hnak : t.onReply 0x45#8 = { t with statusDue := true } := by simp [Transfer.onReply, hdue]
    have hstatus : { t with statusDue := true }.onReply status = (t.note (.deviceNak (some status))).retry := rfl
    have e : t.next (.read [0x45#8, status]) = (t.note (.deviceNak (some status))).retry :=
      calc t.next (.read [0x45#8, status])
          = (t.onReply 0x45#8).consume [status] := (next_read hunread _).trans (consume_cons_of_transfer hphase _ _)
        _ = { t with statusDue := true }.consume [status] := by rw [hnak]
        _ = ({ t with statusDue := true }.onReply status).consume [] := consume_cons_of_transfer (by exact hphase) _ _
        _ = (t.note (.deviceNak (some status))).retry := hstatus ▸ consume_nil ((retry_unread _).trans hunread)
    exact ⟨_, e⟩

/-- What holds of `u` after `n` failures in a row of the chunk that `t` waited on (R180, R182). -/
structure AfterFailures (t : Transfer) (n : Nat) (u : Transfer) : Prop where
  phase : u.phase = if n = retryBound then .aborted .retryExhausted else .transfer
  offset : u.offset = t.offset
  seq : u.seq = t.seq
  data : u.data = t.data
  retries : u.retries = n
  statusDue : u.statusDue = false
  unread : u.unread = []
  written : u.written =
    t.written ++ List.replicate (min n (retryBound - 1)) (chunkPacket (BitVec.ofNat 32 t.seq) t.data)

/-- The log does not matter for it. -/
theorem AfterFailures.setLog {t u : Transfer} {n : Nat} (h : AfterFailures t n u) (notes : List TransferNote) :
    AfterFailures t n { u with log := notes } := { h with }

/-- One more retry: a resend below the bound, the abort at it. -/
theorem AfterFailures.retry {t u : Transfer} {n : Nat} (h : AfterFailures t n u) (hn : n < retryBound) :
    AfterFailures t (n + 1) u.retry := by
  by_cases hlt : n + 1 < retryBound
  · have hphase : u.phase = .transfer := h.phase.trans (if_neg hn.ne)
    have hcount : u.retries + 1 < retryBound := h.retries.symm ▸ hlt
    have hwritten := retry_written_of_lt hcount
    rw [retry_of_lt hcount] at hwritten ⊢
    refine ⟨hphase.trans (if_neg hlt.ne).symm, h.offset, h.seq, h.data, congrArg (· + 1) h.retries, rfl, h.unread,
      hwritten.trans ?_⟩
    rw [h.written, h.seq, h.data, List.append_assoc, ← List.replicate_succ', Nat.min_eq_left (by omega),
      Nat.min_eq_left (by omega)]
  · have hbound : n + 1 = retryBound := by omega
    have hmin : min n (retryBound - 1) = min (n + 1) (retryBound - 1) := by omega
    rw [retry_of_ge (h.retries.symm ▸ hbound.ge)]
    exact ⟨(if_pos hbound).symm, h.offset, h.seq, h.data, congrArg (· + 1) h.retries, rfl, h.unread, hmin ▸ h.written⟩

/-- One more failing event is one more retry. -/
theorem AfterFailures.next {t u : Transfer} {n : Nat} {f : TransferEvent} (h : AfterFailures t n u)
    (hn : n < retryBound) (hf : f.failsChunk = true) : AfterFailures t (n + 1) (u.next f) := by
  have hphase : u.phase = .transfer := h.phase.trans (if_neg hn.ne)
  obtain ⟨notes, e⟩ := next_of_failsChunk hphase h.statusDue h.unread hf
  exact e ▸ (h.setLog notes).retry hn

/-- A run of failures up to the bound. -/
theorem AfterFailures.foldl {t u : Transfer} {n : Nat} {fs : List TransferEvent} (h : AfterFailures t n u)
    (hn : n + fs.length ≤ retryBound) (hfs : ∀ f ∈ fs, f.failsChunk = true) :
    AfterFailures t (n + fs.length) (fs.foldl Transfer.next u) := by
  induction fs generalizing n u with
  | nil => exact h
  | cons f fs ih =>
    obtain ⟨hf, hrest⟩ := List.forall_mem_cons.mp hfs
    have hlen : n + (f :: fs).length = n + 1 + fs.length := by rw [List.length_cons]; omega
    rw [hlen] at hn ⊢
    exact ih (h.next (by omega) hf) hn hrest

/-- Settles O59: no failure yet, and then as many as the list is long. -/
theorem fiveFailuresAbortTheTransfer : Obligations.FiveFailuresAbortTheTransfer := by
  intro t fs hphase hretries hdue hunread hlen hfs
  have hstart : AfterFailures t 0 t := ⟨hphase, rfl, rfl, rfl, hretries, hdue, hunread, (List.append_nil _).symm⟩
  have hend := hstart.foldl (by rwa [Nat.zero_add]) hfs
  rw [Nat.zero_add] at hend
  exact ⟨hend.phase, hend.offset, hend.seq, hend.written⟩

end Sys2Proof.Machine
end

section
/-!
SUPPORT. The exceptions family (`60_exceptions.md`): a refused command word changes nothing (R205), and a well-formed
state always has a next one (R210).
-/
namespace Sys2Proof.Machine

open Sys2Proof

/-! ### Refused command words -/

/-- A command that answers `FULL` is a refused `FS.PUSH`: it leaves the instance as it was (R137, R205). -/
theorem effect_of_full {cap : Nat} {i : Instr} {m : Inst} (h : (effect cap i m).2 = .full) : (effect cap i m).1 = m := by
  have hmem : Response.full.status ∈ statusesOf i := h ▸ effect_status_mem cap i m
  cases i with
  | fsPush d =>
    rcases fsPush_cases cap d m with e | e
    · simp [effect, e] at h
    · rw [effect, e]
  | c16Init | c16Upd | c16Get | c32Init | c32Upd | c32Get | fsClr | fsParse | fsLevel =>
    simp [statusesOf, Response.status] at hmem

/-- A command never answers `ILLEGAL` (R77). -/
theorem effect_ne_illegal (cap : Nat) (i : Instr) (m : Inst) : (effect cap i m).2 ≠ .illegal := by
  intro h
  have hmem : Response.illegal.status ∈ statusesOf i := h ▸ effect_status_mem cap i m
  exact illegal_not_mem_statusesOf i hmem

/-- A word answered `ILLEGAL` or `FULL` leaves the instance of its channel as it was (R205). -/
theorem wordEffect_of_refused {cap : Nat} {w : CmdWord} {m : Inst}
    (h : (wordEffect cap w m).2 = .illegal ∨ (wordEffect cap w m).2 = .full) : (wordEffect cap w m).1 = m := by
  cases hdec : decode w with
  | cmd i =>
    rw [wordEffect_of_decode_cmd cap hdec] at h ⊢
    exact effect_of_full (h.resolve_left (effect_ne_illegal cap i m))
  | illegal why =>
    rw [wordEffect_of_decode_illegal cap hdec]
    rfl

/-- Settles O9: the response that was added is the one of the word's effect (`step_word_of_port`), and a refusing effect
leaves the instance (`wordEffect_of_refused`). -/
theorem refusedCommandChangesNothing : Obligations.RefusedCommandChangesNothing := by
  intro s t ch p q w rest r hin hp hstep hq hunread hr
  obtain ⟨t', hstep', hport, hothers⟩ := step_word_of_port hin hp
  obtain rfl : t' = t := Host.Outcome.next.inj (hstep'.symm.trans hstep)
  obtain rfl := Option.some.inj (hport.symm.trans hq)
  obtain rfl := List.singleton_inj.mp (List.append_cancel_left hunread)
  exact ⟨wordEffect_of_refused hr, hothers⟩

/-! ### No fault, no stuck state -/

/-- A well-formed state has a port on every channel of the block (R31, R207). -/
theorem State.wf_exists_port {s : State} {ch : Nat} (hs : s.wf) (hch : ch < s.cfg.nInst) :
    ∃ p, s.ports[ch]? = some p := by
  obtain ⟨-, hlen, -, -, -⟩ := hs
  exact ⟨_, List.getElem?_eq_getElem (hlen.symm ▸ hch)⟩

/-- Settles O16, by cases on the next input: a command word or a host read finds the port of its channel
(`State.wf_exists_port`), and the reset input or no input needs none. -/
theorem wellFormedStateAlwaysSteps : Obligations.WellFormedStateAlwaysSteps := by
  intro s hs
  cases hin : s.inputs with
  | nil => exact ⟨s, step_nil hin⟩
  | cons e rest =>
    cases e with
    | command ch w =>
      obtain ⟨p, hp⟩ := State.wf_exists_port hs (of_decide_eq_true (State.wf_head hs hin))
      exact ⟨_, step_word_answered hin hp⟩
    | readResponse ch =>
      obtain ⟨p, hp⟩ := State.wf_exists_port hs (of_decide_eq_true (State.wf_head hs hin))
      exact ⟨_, (step_read hin).trans (hostRead_of_port (s := { s with inputs := rest }) hp)⟩
    | reset => exact ⟨_, step_reset hin⟩

end Sys2Proof.Machine
end

section
/-!
SUPPORT. The reset and hazards family (`70_reset_and_hazards.md`): parsing after every push loses every frame (R232), the
three commands that stand in for reset (R222), and what may change an instance at all (R220).
-/
namespace Sys2Proof.Machine

open Sys2Proof

/-! ### Parsing after every push -/

/-- One byte is no header: the hunt drops it (R132). -/
theorem parse_singleton (b : Byte) : parse [b] = ([], .noFrame) :=
  parse_of_none (findHeader_singleton b)

theorem length_parseAfterEveryPush (bytes : List Byte) : (parseAfterEveryPush bytes).length = 2 * bytes.length := by
  simp [parseAfterEveryPush, Nat.mul_comm]

/-- One push into an empty buffer and one FS.PARSE: the byte is gone, and the instance is as before. -/
theorem fsParse_fsPush_of_empty {cap : Nat} {m : Inst} (b : Byte) (hm : m.buf = []) (hcap : 0 < cap) :
    (fsPush cap b m).2 = .ok ∧ fsParse (fsPush cap b m).1 = (m, .noFrame) := by
  have hroom : m.buf.length < cap := by simpa [hm] using hcap
  rw [fsPush_of_lt b hroom, hm]
  refine ⟨rfl, ?_⟩
  simp only [fsParse, List.nil_append, parse_singleton]
  rw [← hm]

/-- Pushes with an FS.PARSE after each, from an empty buffer: the header never stands whole in it, so each round leaves the
instance as it was. -/
theorem wordsEffect_parseAfterEveryPush {cap : Nat} {m : Inst} (bytes : List Byte) (hm : m.buf = []) (hcap : 0 < cap) :
    wordsEffect cap ((parseAfterEveryPush bytes).map encode) m = (m, bytes.flatMap (fun _ => [.ok, .noFrame])) := by
  induction bytes with
  | nil => rfl
  | cons b bytes ih =>
    obtain ⟨hpush, hparse⟩ := fsParse_fsPush_of_empty b hm hcap
    rw [parseAfterEveryPush] at ih ⊢
    simp [wordsEffect, effect, hpush, hparse, ih]

/-- Settles O49: the run on the channel is `wordsEffect_parseAfterEveryPush`, by induction on the bytes. -/
theorem parsingAfterEveryPushNeverYieldsAFrame : Obligations.ParsingAfterEveryPushNeverYieldsAFrame := by
  intro bytes s ch p hp hbuf hcap
  obtain ⟨t, hrun, hport⟩ := run_issue (parseAfterEveryPush bytes) hp
  rw [length_parseAfterEveryPush] at hrun
  rw [wordsEffect_parseAfterEveryPush bytes hbuf hcap] at hport
  exact ⟨t, _, hrun, hport, hbuf, rfl⟩

/-! ### FS.CLR, C16.INIT and C32.INIT in any order -/

/-- Initializing commands, each as often as it likes: a piece of the instance has its reset value if its own command is
among them and is as before otherwise, and every response is `OK` (R93, R113, R138). -/
theorem wordsEffect_inits {is : List Instr} (h : ∀ i ∈ is, i ∈ [Instr.fsClr, .c16Init, .c32Init]) (cap : Nat) (m : Inst) :
    wordsEffect cap (is.map encode) m =
      ({ crc16 := if Instr.c16Init ∈ is then Config.init16 else m.crc16
         crc32 := if Instr.c32Init ∈ is then Config.init32 else m.crc32
         buf := if Instr.fsClr ∈ is then [] else m.buf }, List.replicate is.length .ok) := by
  induction is generalizing m with
  | nil => rfl
  | cons i is ih =>
    obtain ⟨hi, his⟩ := List.forall_mem_cons.mp h
    have hi : i = .fsClr ∨ i = .c16Init ∨ i = .c32Init := by simpa using hi
    simp only [List.map_cons, wordsEffect, wordEffect_encode, ih his]
    rcases hi with rfl | rfl | rfl
    · simp [effect, fsClr, bufClear, List.replicate_succ]
    · simp [effect, c16Init, List.replicate_succ]
    · simp [effect, c32Init, List.replicate_succ]

/-- Settles O12: in any order the three commands are the same three members (`wordsEffect_inits`). -/
theorem initCommandsRestoreTheResetInstance : Obligations.InitCommandsRestoreTheResetInstance := by
  intro is hperm s ch p hp
  obtain ⟨t, hrun, hin, -, hports⟩ :=
    run_words (is.map encode) (s.issue ch is) ch p s.inputs hp (by simp [State.issue])
  have hlen : is.length = 3 := hperm.length_eq
  have heffect : wordsEffect s.cfg.bufCap (is.map encode) p.inst = (Inst.reset, [.ok, .ok, .ok]) := by
    rw [wordsEffect_inits (fun i hi => hperm.mem_iff.mp hi), hlen]
    simp [hperm.mem_iff, Inst.reset, List.replicate]
  rw [List.length_map, hlen] at hrun
  exact ⟨t, hrun, hin, hports.trans (heffect ▸ rfl)⟩

/-! ### What may change an instance -/

/-- The host's read takes a response and leaves every instance (R50). -/
theorem hostRead_insts {ch : Nat} {s t : State} (h : hostRead ch s = .next t) :
    t.ports.map Port.inst = s.ports.map Port.inst := by
  obtain ⟨p, hp, rfl⟩ := hostRead_next h
  calc _ = (s.ports.set ch p).map Port.inst := by simp [List.map_set]
    _ = s.ports.map Port.inst := by rw [ports_set_self hp]

/-- Settles O10: `step_reset`, and for the other sentence the cases of the next input that are left, none and a host read
(`hostRead_insts`). -/
theorem resetInputResetsEveryInstance : Obligations.ResetInputResetsEveryInstance := by
  refine ⟨fun s rest hin => ⟨_, step_reset hin, rfl, rfl, rfl⟩, fun s t hstep hcommand hreset => ?_⟩
  cases hin : s.inputs with
  | nil => rw [Host.Outcome.next.inj ((step_nil hin).symm.trans hstep)]
  | cons e rest =>
    cases e with
    | command ch w => exact absurd hin (hcommand ch w rest)
    | readResponse ch => exact hostRead_insts (s := { s with inputs := rest }) ((step_read hin).symm.trans hstep)
    | reset => exact absurd hin (hreset rest)

end Sys2Proof.Machine
end
